-- ==== Sys2Proof/Word.lean ====
section
/-! DEFINITION. Words, bytes and the integer ranges of the spec (00_scope.md R10, R11). -/

namespace Sys2Proof

/-- One byte of a host's program image (20_memory.md R53). -/
abbrev Byte := BitVec 8

/-- One 32-bit instruction word, bit 0 least significant (R10, R70; IW = 32 in R8). -/
abbrev Word := BitVec 32

/-- `int_N(v)` of R11: the integer `v` has an N-bit two's-complement pattern. -/
abbrev IntFits (n : Nat) (v : Int) : Prop :=
  -(2 : Int) ^ (n - 1) ≤ v ∧ v ≤ (2 : Int) ^ (n - 1) - 1

end Sys2Proof
end

