-- ==== Sys2Proof/Config.lean ====
section
/-! DEFINITION. The block's parameters (00_scope.md R8), its fixed sizes, and the values the spec leaves free. -/

namespace Sys2Proof

/-- The open parameters of R8 with the spec's defaults and its constraints (D2, D6, D7). They are an
argument of the machine: `State` carries them, no step changes them. PROG_LEN, the fourth, is `State.progLen`.
DESIGN CHOICE, safe (log 1). -/
structure Params where
  /-- ACC_W, the accumulator width (D2). -/
  accW : Nat := 32
  /-- PC_W, the program counter width (D6). -/
  pcW : Nat := 16
  /-- CYCLE_W, the cycle counter width (D7). -/
  cycleW : Nat := 32
  accW_ge : 24 ≤ accW := by decide
  pcW_ge : 1 ≤ pcW := by decide
  cycleW_ge : pcW + 1 ≤ cycleW := by decide
deriving DecidableEq, Repr

/-- The decoded opcode a latch holds: one bit, 0 = NOOP, 1 = ADDX (10_state.md R20). -/
inductive Op where
  | noop
  | addx
deriving DecidableEq, Repr, Inhabited

/-- Raster width in cells, `W` (R8, R131). -/
abbrev Config.W : Nat := 40

/-- Raster height in cells, `H` (R8, R131). -/
abbrev Config.H : Nat := 6

/-- Display buffer size, `NCELL = W * H` (R8, R34). -/
abbrev Config.NCELL : Nat := 240

/-- What a byte of program memory that the loader has not written reads as. DESIGN CHOICE, unsafe
where PROG_LEN exceeds what was loaded (log 5): the spec gives program memory no contents of its own. -/
def Config.unlistedByte : Byte := 0

/-- Free value (log 3): what `latch.op` holds after a commit. 93_implementation_defined.md S1: any value. -/
opaque Config.freeLatchOp : Nat → Op

/-- Free value (log 3): what `latch.delta`, of the given width, holds after a commit. S1: any value. -/
opaque Config.freeLatchDelta : (w : Nat) → Nat → BitVec w

/-- Free value (log 8): what `imem_rdata` shows for an address at or above `prog_len`. S3, D27: don't-care. -/
opaque Config.imemDontCare : Nat → Word

end Sys2Proof
end

