-- ==== Sys2Proof/Machine/State.lean ====
section
/-! DEFINITION. The state of the block (10_state.md R20, R44), why a step can stop (never), and reset (70 R190). -/

namespace Sys2Proof.Machine

/-- The instruction latch, "optional pair (instruction reference, remaining-latency counter)", held as the fields
of R27. While `valid` is false, `op` and `delta` mean nothing and no rule and no output reads them (S1). -/
structure Latch where
  /-- `latch.valid`: an instruction is in flight. -/
  valid : Bool
  /-- `latch.op`: the decoded opcode. -/
  op : Op
  /-- `latch.delta`: the decoded ADDX delta, as the integer its ACC_W bits stand for (R73, R100). -/
  delta : Int
  /-- `latch.cnt`: the remaining-latency counter; one bit, since the largest latency is 1 (R27). -/
  cnt : BitVec 1
deriving DecidableEq, Repr

/-- The causes the sticky `fault` register records (60_exceptions.md R175). A fault of the block is no stop of
the model: it transfers no control (R170), and the step that raises it answers a next state. -/
inductive FaultCause where
  /-- R172: fetch of an illegal word. -/
  | illegalInstruction
  /-- R173: commit of an ADDX whose sum leaves ACC_W bits. -/
  | accOverflow
  /-- R174: a step requested while `runnable = 0`. -/
  | contractViolation
deriving DecidableEq, Repr

/-- Why a step stops with a fault: never. The spec's three faults set a bit and are next states (R170, R171), and
no access can fault on its address (20_memory.md R57), so the type is empty and nothing raises it. -/
inductive Fault where
deriving DecidableEq, Repr

/-- Why a step is refused. -/
inductive Refusal where
  /-- Raised by an arm of `exec` for an instruction without a meaning; no arm of this model raises it. Safe. -/
  | notModelled (mnemonic : String)
deriving DecidableEq, Repr

/-- The block's registers (R20) with the step's parameters beside them: program memory, `prog_len` and the widths
(R8, R21; log 1). A register whose width is a parameter is held as the integer its bits stand for (R11: values are
mathematical integers; log 2); `State.InRange` says that it fits its width, and every operation narrows what it
stores to the width. -/
structure State where
  /-- The open parameters ACC_W, PC_W, CYCLE_W (R8). No step changes them. -/
  params : Params
  /-- `acc`, the accumulator: the signed integer of its ACC_W bits (R22). -/
  acc : Int
  /-- `pc`, a word index into the program, PC_W bits unsigned (R24). -/
  pc : Nat
  /-- The one-slot instruction latch (R27). -/
  latch : Latch
  /-- `cycle`, the cycle counter, CYCLE_W bits unsigned (R29). -/
  cycle : Nat
  /-- `fault`, the sticky fault record (R33, R175). -/
  fault : BitVec 3
  /-- `disp`, the display buffer, row-major; true = lit (R34). -/
  disp : Vector Bool Config.NCELL
  /-- `wr_idx`, the pixel writer's running index (R35). -/
  wrIdx : BitVec 8
  /-- Program memory as the little-endian byte image of R53, in canonical form (`Memory.wf`; log 5). -/
  imem : List Host.Cell
  /-- `prog_len`, PROG_LEN, PC_W bits unsigned (R8, R40). -/
  progLen : Nat
  /-- The model's own counter of free values drawn (log 3); no statement rests on its value. -/
  freeDraws : Nat
deriving DecidableEq, Repr

/-- The reset values of R190 for a block of the given parameters. Program memory and `prog_len` are not touched
by reset, so they are arguments. `latch.op` and `latch.delta` have no reset value in the spec:
DESIGN CHOICE NOOP and 0, unsafe (log 4). -/
def State.resetFor (p : Params) (imem : List Host.Cell) (progLen : Nat) (freeDraws : Nat) : State where
  params := p
  acc := 1
  pc := 0
  latch := { valid := false, op := .noop, delta := 0, cnt := 0 }
  cycle := 0
  fault := 0
  disp := Vector.replicate Config.NCELL false
  wrIdx := 0
  imem := imem
  progLen := progLen
  freeDraws := freeDraws

/-- The machine right after reset: the spec's default parameters, R190's registers, and no program loaded
(DESIGN CHOICE, log 6: the host loads one, R193). -/
def State.reset : State := State.resetFor { } [] 0 0

end Sys2Proof.Machine
end

