-- ==== Sys2Proof/Machine/Flags.lean ====
section
/-! DEFINITION. The block has no flags (10_state.md R32): this file holds its status outputs (R31), its logical
states (R30), the fault bits (60 R175) and ADDX's overflow test (41 R121). -/

namespace Sys2Proof.Machine

/-- `halted = (latch.valid = 0) and (pc >= PROG_LEN)` (R31). -/
def State.halted (s : State) : Bool := !s.latch.valid && decide (s.progLen ≤ s.pc)

/-- `faulted = (fault /= 0)` (R31). -/
def State.faulted (s : State) : Bool := decide (s.fault ≠ 0)

/-- `runnable`: not halted and not faulted (R31); the value `step()` returns (40 R111). -/
def State.runnable (s : State) : Bool := !s.halted && !s.faulted

/-- `raster_full`: `wr_idx = NCELL` (45 R137). -/
def State.rasterFull (s : State) : Bool := decide (s.wrIdx.toNat = Config.NCELL)

/-- The document's three logical states (R30). -/
inductive LogicalState where
  | idle
  | executing
  | halted
deriving DecidableEq, Repr

/-- The engine is in exactly one logical state, given by these predicates (R30). -/
def State.logicalState (s : State) : LogicalState :=
  if s.latch.valid then .executing
  else if s.pc < s.progLen then .idle
  else .halted

/-- The bit of `fault` a cause sets (R175). -/
def FaultCause.mask : FaultCause → BitVec 3
  | .illegalInstruction => 0b001
  | .accOverflow => 0b010
  | .contractViolation => 0b100

/-- The cause code of a fault (R175). -/
def FaultCause.code : FaultCause → Nat
  | .illegalInstruction => 0
  | .accOverflow => 1
  | .contractViolation => 2

/-- `fault[f]`: the bit a cause is recorded in. -/
def State.hasFault (s : State) (f : FaultCause) : Bool := s.fault.getLsbD f.code

/-- The mathematical sum an ADDX commit forms (R121, R122). -/
def addxSum (s : State) (delta : Int) : Int := s.acc + delta

/-- The sum leaves ACC_W bits, so the commit raises ACC_OVERFLOW (R121). -/
def addxOverflows (s : State) (delta : Int) : Bool := !decide (IntFits s.params.accW (addxSum s delta))

end Sys2Proof.Machine
end

