-- ==== Sys2Proof/Syntax.lean ====
section
/-! DEFINITION. The two instructions (00_scope.md R2; opcode_table.json). -/

namespace Sys2Proof

/-- The instruction set has exactly two instructions (R2). -/
inductive Instr where
  /-- `noop` (41_accumulator_ops.md R120): no operand. -/
  | noop
  /-- `addx delta` (R121): one operand, a signed integer immediate (R73). -/
  | addx (delta : Int)
deriving DecidableEq, Repr

end Sys2Proof
end

