-- ==== Sys2Proof/WellFormed.lean ====
section
/-! DEFINITION. Which instruction terms the encoding can express. -/

namespace Sys2Proof

/-- An ADDX operand is an integer in -8388608..8388607 (30_encoding.md R73, R77; IMM_W = 24 in R8).
NOOP takes none. -/
def wellFormed : Instr → Bool
  | .noop => true
  | .addx delta => decide (IntFits 24 delta)

end Sys2Proof
end

