-- ==== Sys2Proof/Decode.lean ====
section
/-! DEFINITION. Decoding (30_encoding.md R70-R75) and, after it, encoding (R78). -/

namespace Sys2Proof

/-- Why a word (or the head of a byte image) is no instruction. -/
inductive IllegalWord where
  /-- `opc` is neither 0x00 nor 0x01 (R74). -/
  | unknownOpcode
  /-- `opc = 0x00` with `imm24` not 0 (R74). -/
  | noopImmediate
  /-- A byte image ends inside a word: no word at all, so nothing the block can fetch (R53, R71). -/
  | truncated
deriving DecidableEq, Repr

/-- The answer of Decode (R75): an instruction with its operand, or Illegal. -/
inductive Decoded where
  | instr (i : Instr)
  | illegal (why : IllegalWord)
deriving DecidableEq, Repr

/-- The instruction of an answer, if it has one. -/
def Decoded.toOption : Decoded → Option Instr
  | .instr i => some i
  | .illegal _ => none

/-- Field `opc = w[31:24]` (R70). -/
def opcOf (w : Word) : BitVec 8 := w.extractLsb' 24 8

/-- Field `imm24 = w[23:0]` (R70). -/
def imm24Of (w : Word) : BitVec 24 := w.extractLsb' 0 24

/-- `sext_24` (R11, R73): the integer a 24-bit two's-complement field stands for. -/
def sext24 (v : BitVec 24) : Int := v.toInt

/-- `enc_24` (R11, R78): the 24-bit two's-complement pattern of an integer. -/
def enc24 (delta : Int) : BitVec 24 := BitVec.ofInt 24 delta

/-- `Decode` (R75), total on every 32-bit word. -/
def decode (w : Word) : Decoded :=
  if opcOf w = 0x00 then
    if imm24Of w = 0 then .instr .noop else .illegal .noopImmediate
  else if opcOf w = 0x01 then .instr (.addx (sext24 (imm24Of w)))
  else .illegal .unknownOpcode

/-- The opcode of an instruction (R72). -/
def opcodeOf : Instr → BitVec 8
  | .noop => 0x00
  | .addx _ => 0x01

/-- The immediate field of an instruction (R70, R72). -/
def immOf : Instr → BitVec 24
  | .noop => 0
  | .addx delta => enc24 delta

/-- Assembly of one instruction to its word `{opc, imm24}` (R78). -/
def encode (i : Instr) : Word := opcodeOf i ++ immOf i

/-- A word from the four bytes of a little-endian image, lowest address first (R53, D12). -/
def wordOfBytes (b0 b1 b2 b3 : Byte) : Word := b3 ++ b2 ++ b1 ++ b0

/-- Byte `j` of a word: bits `[8j+7 : 8j]` (R53). -/
def byteOfWord (w : Word) (j : Nat) : Byte := w.extractLsb' (8 * j) 8

/-- The little-endian image of a word, lowest address first (R53). -/
def bytesOfWord (w : Word) : List Byte :=
  [byteOfWord w 0, byteOfWord w 1, byteOfWord w 2, byteOfWord w 3]

/-- Decode the instruction at the head of a byte image, with the bytes after it (R53, R71). -/
def decodeBytes : List Byte → Decoded × List Byte
  | b0 :: b1 :: b2 :: b3 :: rest => (decode (wordOfBytes b0 b1 b2 b3), rest)
  | bs => (.illegal .truncated, bs)

/-- The byte image of an instruction (R53, R78). -/
def encodeBytes (i : Instr) : List Byte := bytesOfWord (encode i)

/-- The instruction the decoder reads from a row's bits, numbered as opcode_table.json numbers them; bits at
or above `nbits` are 0. -/
def decodeTableWord (nbits w : Nat) : Option Instr :=
  (decodeBytes (bytesOfWord (BitVec.ofNat 32 (w % 2 ^ nbits)))).1.toOption

end Sys2Proof
end

