-- ==== Sys2Proof/Machine/Operands.lean ====
section
/-! DEFINITION. The one operand form, ADDX's immediate: how it enters the latch and how it is read back
(30_encoding.md R73; 10_state.md R27). -/

namespace Sys2Proof.Machine

/-- The value an N-bit two's-complement register holds after an integer is stored in it: `v` itself where `int_N(v)`
holds, else `v` taken modulo 2^N into the signed range. -/
def narrowInt (n : Nat) (v : Int) : Int := v.bmod (2 ^ n)

/-- The decoded opcode that stands for an instruction in the latch (R20, R27). -/
def opOf : Instr → Op
  | .noop => .noop
  | .addx _ => .addx

/-- The operand an instruction puts in the latch: Decode gives NOOP the delta 0 (R75). -/
def deltaOf : Instr → Int
  | .noop => 0
  | .addx delta => delta

/-- `Latency` (R75): the counter a fetch loads (R103). -/
def latency : Op → BitVec 1
  | .noop => 0
  | .addx => 1

/-- A full latch holding instruction `i` with counter `cnt`; the delta is held in ACC_W bits (R73, R100), which
every encodable delta fits, since ACC_W is at least 24. -/
def Latch.holding (accW : Nat) (i : Instr) (cnt : BitVec 1) : Latch where
  valid := true
  op := opOf i
  delta := narrowInt accW (deltaOf i)
  cnt := cnt

/-- The instruction a full latch holds (R27). -/
def Latch.instr (l : Latch) : Instr :=
  match l.op with
  | .noop => .noop
  | .addx => .addx l.delta

/-- `latch.op` as its register bit: 0 = NOOP, 1 = ADDX (R20). -/
def opBit : Op → BitVec 1
  | .noop => 0
  | .addx => 1

end Sys2Proof.Machine
end

