-- ==== Sys2Proof/Machine/Ops.lean ====
section
/-! DEFINITION. The named operations: program memory, the display buffer, raising a fault, the latch, commit, and
the cycle every instruction's meaning is made of (40_execution_cycle.md R100). -/

namespace Sys2Proof.Machine

/-! ### Program memory, a canonical list of bytes -/

/-- The canonical form: addresses strictly rise, and no entry equals what an unlisted byte reads as. -/
abbrev Memory.wf (m : List Host.Cell) : Prop :=
  m.Pairwise (fun c d => c.1 < d.1) ∧ ∀ c ∈ m, c.2 ≠ Config.unlistedByte

/-- The byte at an address of the image (R53); an unlisted one reads `Config.unlistedByte` (log 5). -/
def Memory.readByte : List Host.Cell → Nat → Byte
  | [], _ => Config.unlistedByte
  | c :: m, a => if c.1 = a then c.2 else Memory.readByte m a

/-- A cell in front of a memory, left out when it says what an unlisted byte reads as. -/
def Memory.consCell (a : Nat) (b : Byte) (m : List Host.Cell) : List Host.Cell :=
  if b = Config.unlistedByte then m else (a, b) :: m

/-- Write one byte, keeping the canonical form. -/
def Memory.writeByte : List Host.Cell → Nat → Byte → List Host.Cell
  | [], a, b => Memory.consCell a b []
  | c :: m, a, b =>
    if a < c.1 then Memory.consCell a b (c :: m)
    else if a = c.1 then Memory.consCell a b m
    else c :: Memory.writeByte m a b

/-- The 32-bit word at a word index: bytes `4k .. 4k+3`, little-endian (R53). -/
def Memory.readWord (m : List Host.Cell) (k : Nat) : Word :=
  wordOfBytes (Memory.readByte m (4 * k)) (Memory.readByte m (4 * k + 1))
    (Memory.readByte m (4 * k + 2)) (Memory.readByte m (4 * k + 3))

/-- The loader's write of one word at a word index (R50, R53). -/
def Memory.writeWord (m : List Host.Cell) (k : Nat) (w : Word) : List Host.Cell :=
  Memory.writeByte (Memory.writeByte (Memory.writeByte (Memory.writeByte m (4 * k) (byteOfWord w 0))
    (4 * k + 1) (byteOfWord w 1)) (4 * k + 2) (byteOfWord w 2)) (4 * k + 3) (byteOfWord w 3)

/-- The image of a program from a word index on, index 0 first (R50, R78). -/
def Memory.ofWords (m : List Host.Cell) (k : Nat) : List Word → List Host.Cell
  | [] => m
  | w :: ws => Memory.ofWords (Memory.writeWord m k w) (k + 1) ws

/-! ### Fetch -/

/-- `imem_rdata` for an address (R40, R42): `Program[k]` below `prog_len`, don't-care otherwise (log 8). -/
def State.programWord (s : State) (k : Nat) : Word :=
  if k < s.progLen then Memory.readWord s.imem k else Config.imemDontCare k

/-- Fetch (R103): decode `Program[pc]`. It changes no register. -/
def State.fetch (s : State) : Decoded := decode (s.programWord s.pc)

/-- The instruction in hand: the one the full latch holds, else the one fetched (R100, `L`). -/
def State.inHand (s : State) : Decoded :=
  if s.latch.valid then .instr s.latch.instr else s.fetch

/-! ### Raising a fault -/

/-- `raise Fault(f)` (R12, R171): the fault bit is ORed in and every other register is as before the step. -/
def State.raise (s : State) (f : FaultCause) : State := { s with fault := s.fault ||| f.mask }

/-! ### The display buffer and the pixel writer -/

/-- Display cell `i` (R34); there is none at or beyond NCELL, and a host read there gives 0 (R56). -/
def State.cell (s : State) (i : Nat) : Bool :=
  if h : i < Config.NCELL then s.disp[i] else false

/-- `Lit(a, col)` (45 R132), on mathematical integers. -/
def lit (a : Int) (col : Nat) : Bool := decide ((a - col).natAbs ≤ 1)

/-- The writer's part of a step (R133): write cell `wr_idx` from the accumulator value `a` and move on; nothing when
the raster is full. -/
def State.writePixel (s : State) (a : Int) : State :=
  if h : s.wrIdx.toNat < Config.NCELL then
    { s with
      disp := s.disp.set s.wrIdx.toNat (lit a (s.wrIdx.toNat % Config.W)) h
      wrIdx := s.wrIdx + 1 }
  else s

/-! ### Count-down, commit, cycle -/

/-- Count-down (R104): instruction `i` stays in the latch with its counter decremented. -/
def State.countDown (s : State) (i : Instr) (cnt : BitVec 1) : State :=
  { s with latch := Latch.holding s.params.accW i (cnt - 1) }

/-- `latch.valid <- 0` at a commit (R105). `cnt` is 0 there (R105); `op` and `delta` become unspecified while the
latch is empty, so they are free values, fresh at each commit (S1; log 3). -/
def State.clearLatch (s : State) : State :=
  { s with
    latch :=
      { valid := false
        op := Config.freeLatchOp s.freeDraws
        delta := (Config.freeLatchDelta s.params.accW s.freeDraws).toInt
        cnt := 0 }
    freeDraws := s.freeDraws + 1 }

/-- What a commit does beside the effect (R105): clear the latch and advance `pc`, in PC_W bits (which never wrap in
a run, R26). -/
def State.retire (s : State) : State :=
  let t := s.clearLatch
  { t with pc := (t.pc + 1) % 2 ^ t.params.pcW }

/-- `cycle <- cycle + 1` (R106), in CYCLE_W bits (which never overflow in a run, R29). -/
def State.tick (s : State) : State := { s with cycle := (s.cycle + 1) % 2 ^ s.params.cycleW }

/-- The result of an effect or of a whole step: the state, or the fault raised (R12). -/
inductive Attempt where
  | done (s : State)
  | raised (f : FaultCause)
deriving DecidableEq, Repr

/-- Commit (R105): the effect, then the latch cleared and `pc` advanced; a raise of the effect goes through. -/
def Attempt.retire : Attempt → Attempt
  | .done s => .done s.retire
  | .raised f => .raised f

/-- The end of a step started in `s` (R100): a raise leaves only its fault bit; otherwise the pixel writer, which
reads the accumulator from before the step (R133), and the cycle counter act. -/
def Attempt.finish (s : State) : Attempt → State
  | .done t => (t.writePixel s.acc).tick
  | .raised f => s.raise f

/-- The counter the step sees after fetch (R100, `L.cnt`): the held one, or the latency just loaded. -/
def State.counter (s : State) (i : Instr) : BitVec 1 :=
  if s.latch.valid then s.latch.cnt else latency (opOf i)

/-- Parts 2 and 3 of a step with instruction `i` in hand: count-down or commit, never both (R102; C1). -/
def State.engine (s : State) (i : Instr) (effect : State → Attempt) : Attempt :=
  if s.counter i = 0 then (effect s).retire else .done (s.countDown i (s.counter i))

/-- One allowed step with instruction `i` in hand (R100, after the contract check and the decoding). -/
def State.cycleWith (s : State) (i : Instr) (effect : State → Attempt) : State :=
  (s.engine i effect).finish s

/-! ### Reset -/

/-- `rst = 1` at an edge (R190, R194): every register takes its reset value; program memory, `prog_len` and the
parameters stay. -/
def State.applyReset (s : State) : State := State.resetFor s.params s.imem s.progLen s.freeDraws

/-! ### Placing one instruction where the next step fetches -/

/-- The index `Step.lean` places an instruction at: `pc`, or 0 where `pc` is the last PC_W-bit value, which no
program holds an instruction at (R8, R26). -/
def State.placeIndex (s : State) : Nat := if s.pc + 1 < 2 ^ s.params.pcW then s.pc else 0

/-- `s` with word `w` in program memory where the next step fetches, in a state whose next step does fetch: latch
empty, no fault recorded, `prog_len` above `pc`. It stands for the host's load (R193; log 6). -/
def State.placeInstr (s : State) (w : Word) : State :=
  { s with
    pc := s.placeIndex
    latch := { s.latch with valid := false }
    fault := 0
    imem := Memory.writeWord s.imem s.placeIndex w
    progLen := if s.placeIndex < s.progLen then s.progLen else s.placeIndex + 1 }

end Sys2Proof.Machine
end

