-- ==== Sys2Proof/Machine/Accumulator.lean ====
section
/-! DEFINITION. The meanings of the two instructions (41_accumulator_ops.md R120, R121). -/

namespace Sys2Proof.Machine

/-- `Effect(NOOP, _)` (R120): no register written. -/
def effectNoop (s : State) : Attempt := .done s

/-- `Effect(ADDX, delta)` (R121): the integer sum goes to `acc` if it fits ACC_W bits, else ACC_OVERFLOW; no wrap. -/
def effectAddx (delta : Int) (s : State) : Attempt :=
  if addxOverflows s delta then .raised .accOverflow
  else .done { s with acc := addxSum s delta }

/-- NOOP in hand for one step (R120): latency 0, so it is fetched and committed in the same step (R107). -/
def execNoop (s : State) : Host.Outcome State Fault Refusal :=
  .next (s.cycleWith .noop effectNoop)

/-- ADDX in hand for one step (R121): its first step latches it and counts down, its second commits it (R107). -/
def execAddx (delta : Int) (s : State) : Host.Outcome State Fault Refusal :=
  .next (s.cycleWith (.addx delta) (effectAddx delta))

end Sys2Proof.Machine
end

