-- ==== Sys2Proof/Machine/Step.lean ====
section
/-! DEFINITION. One step, `step()` (40_execution_cycle.md R100): one rising edge with `step = 1` and `rst = 0`. -/

namespace Sys2Proof.Machine

/-- The contract check comes first (R101, R178); then the instruction in hand, fetched or held, runs (R103). -/
def step (s : State) : Host.Outcome State Fault Refusal :=
  if s.runnable then
    match s.inHand with
    | .instr i => exec i s
    | .illegal _ => .next (s.raise .illegalInstruction)
  else .next (s.raise .contractViolation)

/-- `s` with the instruction whose bits are `w` (opcode_table.json's numbering, the bits at or above `nbits` zero)
placed where the next step fetches (log 6). -/
def State.withFetchWord (s : State) (nbits w : Nat) : State :=
  s.placeInstr (BitVec.ofNat 32 (w % 2 ^ nbits))

end Sys2Proof.Machine
end

