-- ==== Sys2Proof/Machine/Ports.lean ====
section
/-! DEFINITION. The block's output ports and trace record (10_state.md R40, R41; 60_exceptions.md R184). -/

namespace Sys2Proof.Machine

/-- The outputs of R40 but `disp_rdata`, for a block of the given parameters. Each is a combinational function of the
registers and of `prog_len` (R41); a port carries the bits of its register (R40). -/
structure Outputs (p : Params) where
  imemAddr : BitVec p.pcW
  acc : BitVec p.accW
  pcOut : BitVec p.pcW
  cycleOut : BitVec p.cycleW
  halted : Bool
  runnable : Bool
  faulted : Bool
  fault : BitVec 3
  latchValid : Bool
  latchOp : BitVec 1
  wrIdxOut : BitVec 8
  rasterFull : Bool
deriving DecidableEq, Repr

/-- The trace output `latch_op`: the register while the latch is full, 0 otherwise (R40, D23). -/
def State.latchOpOut (s : State) : BitVec 1 := if s.latch.valid then opBit s.latch.op else 0

/-- The outputs the block drives between two edges (R40, R41). -/
def State.outputs (s : State) : Outputs s.params where
  imemAddr := BitVec.ofNat s.params.pcW s.pc
  acc := BitVec.ofInt s.params.accW s.acc
  pcOut := BitVec.ofNat s.params.pcW s.pc
  cycleOut := BitVec.ofNat s.params.cycleW s.cycle
  halted := s.halted
  runnable := s.runnable
  faulted := s.faulted
  fault := s.fault
  latchValid := s.latch.valid
  latchOp := s.latchOpOut
  wrIdxOut := s.wrIdx
  rasterFull := s.rasterFull

/-- The input `imem_rdata` as program memory drives it for the address on `imem_addr` (R40, R42). -/
def State.imemRdata (s : State) : Word := s.programWord s.pc

/-- `disp_rdata` for a host read at `disp_raddr`: the cell, or 0 at or beyond NCELL (R40, R56). The read has no side
effect (45 R137). -/
def State.dispRdata (s : State) (raddr : BitVec 8) : Bool := s.cell raddr.toNat

/-- The per-cycle trace record of R184 (D23). -/
structure TraceRecord (p : Params) where
  cycleOut : BitVec p.cycleW
  pcOut : BitVec p.pcW
  acc : BitVec p.accW
  latchValid : Bool
  latchOp : BitVec 1
  fault : BitVec 3
  wrIdxOut : BitVec 8
deriving DecidableEq, Repr

/-- Read between two edges, the trace record for the cycle about to run (R184). It changes no state. -/
def State.trace (s : State) : TraceRecord s.params where
  cycleOut := BitVec.ofNat s.params.cycleW s.cycle
  pcOut := BitVec.ofNat s.params.pcW s.pc
  acc := BitVec.ofInt s.params.accW s.acc
  latchValid := s.latch.valid
  latchOp := s.latchOpOut
  fault := s.fault
  wrIdxOut := s.wrIdx

end Sys2Proof.Machine
end

