-- ==== Sys2Proof/Machine/Edge.lean ====
section
/-! DEFINITION. The rising edge of `clk` with the host's inputs `rst` and `step` (10_state.md R43, R44), and runs of
edges. -/

namespace Sys2Proof.Machine

/-- One rising edge (R43): reset wins over step, and with neither input no register changes. -/
def clockEdge (rst stepIn : Bool) (s : State) : Host.Outcome State Fault Refusal :=
  if rst then .next s.applyReset
  else if stepIn then step s
  else .next s

/-- The state an outcome leaves: the next state, or the state `s` the machine stopped in (it never stops). -/
def outcomeState (s : State) : Host.Outcome State Fault Refusal → State
  | .next t => t
  | .fault _ => s
  | .refused _ => s

/-- The state after one edge with `step = 1`, `rst = 0`: one cycle of the document (R17). -/
def State.after (s : State) : State := outcomeState s (step s)

/-- The state after `k` requested steps; `acc_k` of 00_scope.md R13 is `(s.afterN k).acc` from reset. -/
def State.afterN (s : State) : Nat → State
  | 0 => s
  | k + 1 => (s.after).afterN k

/-- The state after a sequence of edges, each with its values of `rst` and `step`: all a host can do to the registers
(46 R150; program memory and `prog_len` have no move, R52). -/
def State.afterEdges (s : State) : List (Bool × Bool) → State
  | [] => s
  | e :: es => (outcomeState s (clockEdge e.1 e.2 s)).afterEdges es

end Sys2Proof.Machine
end

