-- ==== Sys2Proof/Machine/Driver.lean ====
section
/-! DEFINITION. The plain cycle driver (46_host_driver.md R152-R154) and a run's result (R162). -/

namespace Sys2Proof.Machine

/-- A run's result (R162): the block's state where the run ends, and the procedure's return value. -/
structure RunOutcome (α : Type) where
  endState : State
  value : α
deriving DecidableEq, Repr

/-- The driver's loop: step while `runnable = 1` (R152) and `go` holds, at most `fuel` times. -/
def State.drive (go : State → Bool) : Nat → State → State
  | 0, s => s
  | n + 1, s => if s.runnable && go s then State.drive go n s.after else s

/-- The most steps any run takes: `2 * PROG_LEN` (R153). -/
def State.stepBound (s : State) : Nat := 2 * s.progLen

/-- `cycle_out < budget`; no budget is the infinite one (R154). -/
def withinBudget (budget : Option Nat) (s : State) : Bool :=
  match budget with
  | none => true
  | some b => decide (s.cycle < b)

/-- The state at the end of `RunToHalt` (R154): reset, then step. -/
def State.runToHaltState (budget : Option Nat) (s : State) : State :=
  s.applyReset.drive (withinBudget budget) s.stepBound

/-- What `RunToHalt` returns: `(acc, pc_out, cycle_out, fault)` (R154). -/
structure RunResult where
  acc : Int
  pc : Nat
  cycle : Nat
  fault : BitVec 3
deriving DecidableEq, Repr

/-- The four outputs a run returns, read from a state (R154). -/
def State.runResult (s : State) : RunResult where
  acc := s.acc
  pc := s.pc
  cycle := s.cycle
  fault := s.fault

/-- The run `RunToHalt(budget)` makes (R154, R162); it ends with `runnable = 0` or with the budget met. -/
def State.runToHaltRun (budget : Option Nat) (s : State) : RunOutcome RunResult where
  endState := s.runToHaltState budget
  value := (s.runToHaltState budget).runResult

/-- `RunToHalt(budget)` (R154). -/
def State.runToHalt (budget : Option Nat) (s : State) : RunResult := (s.runToHaltRun budget).value

end Sys2Proof.Machine
end

