-- ==== Sys2Proof/Machine/Raster.lean ====
section
/-! DEFINITION. The raster run and rendering (46_host_driver.md R159, R160). -/

namespace Sys2Proof.Machine

/-- The state at the end of the raster run (R159): reset, then step until the raster is full or the engine stops.
Each step fills one cell, so NCELL steps are enough. -/
def State.rasterState (s : State) : State :=
  s.applyReset.drive (fun t => !t.rasterFull) Config.NCELL

/-- The run `Raster()` makes (R159, R162); it ends with `runnable = 0` or with the raster full. -/
def State.rasterRun (s : State) : RunOutcome (Vector Bool Config.NCELL) where
  endState := s.rasterState
  value := s.rasterState.disp

/-- `Raster()` (R159). -/
def State.raster (s : State) : Vector Bool Config.NCELL := s.rasterRun.value

/-- One cell as a character: `#` lit, `.` unlit (R160). -/
def cellChar (b : Bool) : Char := if b then '#' else '.'

/-- Row `r`: cells `40r .. 40r+39` in order (R160). -/
def renderRow (disp : Vector Bool Config.NCELL) (r : Nat) : List Char :=
  ((disp.toList.drop (Config.W * r)).take Config.W).map cellChar

/-- The six rows, one LF between rows and none after the last (R160, D15). -/
def render (disp : Vector Bool Config.NCELL) : List Char :=
  ['\n'].intercalate ((List.range Config.H).map (renderRow disp))

end Sys2Proof.Machine
end

