-- ==== Sys2Proof/Machine/Loader.lean ====
section
/-! DEFINITION. The host's loader: the text form, assembly, byte images and loading (30_encoding.md R76-R80; 20 R53;
46_host_driver.md R150, R151; 70 R193). It is outside the block. -/

namespace Sys2Proof.Machine

/-- Errors of the host's procedures; they set no bit of `fault` (60 R176). -/
inductive HostError where
  /-- From the loader: a text outside the grammar (30 R77, R80). -/
  | parseError
  /-- From the loader: more than 2^PC_W - 1 instructions are refused (D6, R8). -/
  | programTooLong
  /-- From the loader: a byte image that ends inside a word. DESIGN CHOICE, safe (log 9). -/
  | truncatedImage
  /-- From the checkpoint sampler: a list not strictly ascending, or an index below 1 (46 R157). -/
  | badTargets
  /-- From the checkpoint sampler: a target beyond the program's last cycle (46 R155, R156). -/
  | insufficientCycles
  /-- From the checkpoint sampler: the run faulted first, with the `fault` bits (46 R155, R156). -/
  | engineFault (bits : BitVec 3)
deriving DecidableEq, Repr

/-- The value of a decimal digit. -/
def digitValue (c : Char) : Option Nat :=
  if '0'.toNat ≤ c.toNat ∧ c.toNat ≤ '9'.toNat then some (c.toNat - '0'.toNat) else none

/-- Read digits onto the value read so far; none on any other character. -/
def readDigits : Nat → List Char → Option Nat
  | n, [] => some n
  | n, c :: cs =>
    match digitValue c with
    | some d => readDigits (10 * n + d) cs
    | none => none

/-- `digit+` of the grammar (R77). -/
def readNat : List Char → Option Nat
  | [] => none
  | c :: cs => readDigits 0 (c :: cs)

/-- `int := ["-"] digit+` (R77). -/
def readInt : List Char → Option Int
  | '-' :: cs => (readNat cs).map fun n => -(n : Int)
  | cs => (readNat cs).map fun n => (n : Int)

/-- The operand of an `addx` line, within `int_24` (R77). -/
def readOperand (cs : List Char) : Except HostError Instr :=
  match readInt cs with
  | some v => if IntFits 24 v then .ok (.addx v) else .error .parseError
  | none => .error .parseError

/-- `line := "noop" | "addx" SP int` (R77). -/
def parseLine : List Char → Except HostError Instr
  | ['n', 'o', 'o', 'p'] => .ok .noop
  | 'a' :: 'd' :: 'd' :: 'x' :: ' ' :: cs => readOperand cs
  | _ => .error .parseError

/-- The lines of a text, `(line LF)*` with the last LF optional (R77). -/
def splitLines : List Char → List (List Char)
  | [] => []
  | c :: cs =>
    if c = '\n' then [] :: splitLines cs
    else
      match splitLines cs with
      | [] => [[c]]
      | l :: ls => (c :: l) :: ls

/-- The instructions of the lines, or ParseError at the first line outside the grammar (R80). -/
def parseLines : List (List Char) → Except HostError (List Instr)
  | [] => .ok []
  | l :: ls =>
    match parseLine l, parseLines ls with
    | .ok i, .ok is => .ok (i :: is)
    | .error e, _ => .error e
    | .ok _, .error e => .error e

/-- The instructions of a program text (R77). -/
def parseProgram (text : List Char) : Except HostError (List Instr) := parseLines (splitLines text)

/-- Assembly of a text to words, line `k` to program index `k` (R78). -/
def assemble (text : List Char) : Except HostError (List Word) := (parseProgram text).map (List.map encode)

/-- The words of a host byte image: byte `4k` is bits 7:0 of word `k` (R53). -/
def wordsOfImage : List Byte → Except HostError (List Word)
  | [] => .ok []
  | b0 :: b1 :: b2 :: b3 :: rest =>
    match wordsOfImage rest with
    | .ok ws => .ok (wordOfBytes b0 b1 b2 b3 :: ws)
    | .error e => .error e
  | _ => .error .truncatedImage

/-- The byte image of words (R53). -/
def imageOfWords (ws : List Word) : List Byte := ws.flatMap bytesOfWord

/-- Load a program under `rst = 1` and reset (R150, R193): program memory and `prog_len` are the program's, every
register takes its reset value. Any words may be loaded, illegal ones too (R150). -/
def State.load (words : List Word) (s : State) : Except HostError State :=
  if words.length < 2 ^ s.params.pcW then
    .ok (State.resetFor s.params (Memory.ofWords [] 0 words) words.length s.freeDraws)
  else .error .programTooLong

/-- The loader (R151): on a ParseError no run starts. -/
def State.loadText (text : List Char) (s : State) : Except HostError State :=
  match assemble text with
  | .ok ws => s.load ws
  | .error e => .error e

/-- Loading from a little-endian byte image (R53). -/
def State.loadImage (image : List Byte) (s : State) : Except HostError State :=
  match wordsOfImage image with
  | .ok ws => s.load ws
  | .error e => .error e

/-- The boot order of R193 for a block of the given parameters. -/
def boot (p : Params) (words : List Word) : Except HostError State := (State.resetFor p [] 0 0).load words

end Sys2Proof.Machine
end

