-- ==== Sys2Proof/Machine/Sampler.lean ====
section
/-! DEFINITION. The checkpoint sampler (46_host_driver.md R155-R158). -/

namespace Sys2Proof.Machine

/-- `Stop()` (R155): EngineFault with the fault bits, or InsufficientCycles. -/
def State.stopError (s : State) : HostError :=
  if s.faulted then .engineFault s.fault else .insufficientCycles

/-- The inner loop of R155: step while `cycle_out + 1 < t` and `runnable = 1`; target `t` needs fewer than `t` steps. -/
def State.toCycle (t : Nat) (s : State) : State := s.drive (fun u => decide (u.cycle + 1 < t)) t

/-- The outer loop of R155: advance to cycle `t`; stop there with `Stop()` if it cannot run, else fold `t * acc`
"during cycle t" into an unbounded integer (R158). No step follows the last target. -/
def State.sampleAll : List Nat → Int → State → RunOutcome (Except HostError Int)
  | [], sum, s => { endState := s, value := .ok sum }
  | t :: ts, sum, s =>
    if (s.toCycle t).runnable then State.sampleAll ts (sum + t * (s.toCycle t).acc) (s.toCycle t)
    else { endState := s.toCycle t, value := .error (s.toCycle t).stopError }

/-- A target list the sampler takes: strictly ascending, every index at least 1 (R155, R157). -/
abbrev targetsOk (targets : List Int) : Prop :=
  targets.Pairwise (fun t u => t < u) ∧ ∀ t ∈ targets, 1 ≤ t

/-- The run `Checkpoint(targets)` makes (R155, R162): a bad list is refused before any step, so no run starts and the
block stays as it is (R157); else reset and sample. -/
def State.checkpointRun (targets : List Int) (s : State) : RunOutcome (Except HostError Int) :=
  if targetsOk targets then State.sampleAll (targets.map Int.toNat) 0 s.applyReset
  else { endState := s, value := .error .badTargets }

/-- `Checkpoint(targets)` (R155). -/
def State.checkpoint (targets : List Int) (s : State) : Except HostError Int := (s.checkpointRun targets).value

end Sys2Proof.Machine
end

