-- ==== Sys2Proof/Safety.lean ====
section
/-! DEFINITION. What counts as a good state and a clean run, and the vocabulary the claims are stated in. -/

namespace Sys2Proof.Machine

/-- A run is clean when `fault = 0` at its end (46_host_driver.md R162). -/
def State.clean (s : State) : Prop := s.fault = 0

/-- The same, asked of a run's result (R162). -/
def RunOutcome.clean {α : Type} (r : RunOutcome α) : Prop := r.endState.clean

/-- The parameters, program memory (byte by byte) and `prog_len` of `t` are those of `s` (20 R52). -/
structure SameProgram (s t : State) : Prop where
  params : t.params = s.params
  bytes : ∀ a, Memory.readByte t.imem a = Memory.readByte s.imem a
  progLen : t.progLen = s.progLen

/-- Between `s` and `t` the pixel writer acted once (45 R133): with the raster not full it wrote cell `wr_idx` from the
accumulator of `s` and no other cell; with the raster full it did nothing. -/
structure WriterActs (s t : State) : Prop where
  index : s.wrIdx.toNat < Config.NCELL → t.wrIdx.toNat = s.wrIdx.toNat + 1
  written : s.wrIdx.toNat < Config.NCELL →
    t.cell s.wrIdx.toNat = lit s.acc (s.wrIdx.toNat % Config.W)
  others : ∀ i, i ≠ s.wrIdx.toNat → t.cell i = s.cell i
  full : Config.NCELL ≤ s.wrIdx.toNat → t.wrIdx = s.wrIdx ∧ t.disp = s.disp

/-- `t` is `s` after an instruction committed (40 R105) in a step that completed (R106): the latch is empty, `pc` and
`cycle` are one higher in their widths, the writer acted; no fault bit changed. What `acc` holds is the instruction's. -/
structure Committed (s t : State) : Prop where
  latch : t.latch.valid = false ∧ t.latch.cnt = 0
  pc : t.pc = (s.pc + 1) % 2 ^ s.params.pcW
  cycle : t.cycle = (s.cycle + 1) % 2 ^ s.params.cycleW
  fault : t.fault = s.fault
  writer : WriterActs s t
  program : SameProgram s t

/-- `t` is `s` after a completed step that committed nothing (40 R104) and left `i` in the latch with counter `cnt`. -/
structure CountedDown (s t : State) (i : Instr) (cnt : BitVec 1) : Prop where
  latch : t.latch.valid = true ∧ t.latch.instr = i ∧ t.latch.cnt = cnt
  acc : t.acc = s.acc
  pc : t.pc = s.pc
  cycle : t.cycle = (s.cycle + 1) % 2 ^ s.params.cycleW
  fault : t.fault = s.fault
  writer : WriterActs s t
  program : SameProgram s t

/-- A valid latch adds one to the steps its instruction has taken. -/
def State.inFlight (s : State) : Nat := if s.latch.valid then 1 else 0

/-- What a recorded fault says of the state it was recorded in (60 R171-R174): ILLEGAL_INSTRUCTION leaves the latch
empty and `pc` at the illegal word; ACC_OVERFLOW leaves the latch holding the ADDX that overflows; CONTRACT_VIOLATION
is recorded on a Halted engine or on top of another fault. -/
structure State.FaultInv (s : State) : Prop where
  illegal : s.hasFault .illegalInstruction →
    s.latch.valid = false ∧ s.pc < s.progLen ∧ ∃ why, s.fetch = .illegal why
  overflow : s.hasFault .accOverflow →
    s.latch.valid = true ∧ addxOverflows s s.latch.delta = true
  contract : s.hasFault .contractViolation →
    s.halted ∨ s.hasFault .illegalInstruction ∨ s.hasFault .accOverflow

/-- Every register and parameter held as an integer fits the width the spec gives it (10 R20, R40; log 2), and program
memory is in canonical form. -/
structure State.InRange (s : State) : Prop where
  acc : IntFits s.params.accW s.acc
  delta : IntFits s.params.accW s.latch.delta
  pc : s.pc < 2 ^ s.params.pcW
  cycle : s.cycle < 2 ^ s.params.cycleW
  progLen : s.progLen < 2 ^ s.params.pcW
  imem : Memory.wf s.imem

/-- The machine's invariant, between two steps of a run from reset. -/
structure State.Inv (s : State) : Prop where
  /-- Every register fits its width. -/
  range : s.InRange
  /-- R24: `0 <= pc <= PROG_LEN`. -/
  pc_le : s.pc ≤ s.progLen
  /-- R28: a valid latch holds an ADDX with counter 0; an empty latch's counter is 0 (R190, R105). -/
  latch_addx : (s.latch.valid = true → s.latch.op = .addx) ∧ s.latch.cnt = 0
  /-- R25: while the latch is valid, `pc` is the index of the instruction in it. -/
  latch_pc : s.latch.valid = true → s.pc < s.progLen ∧ s.fetch = .instr s.latch.instr
  /-- R29, R107: each instruction takes at least one cycle and at most two. -/
  cycle_ge : s.pc + s.inFlight ≤ s.cycle
  cycle_le : s.cycle ≤ 2 * s.pc + s.inFlight
  /-- R35: `wr_idx = min(k, NCELL)` where `cycle = k`. -/
  wrIdx : s.wrIdx.toNat = min s.cycle Config.NCELL
  /-- R171-R174. -/
  faults : s.FaultInv

/-- The words of the program, index 0 first (20 R56). -/
def State.program (s : State) : List Word := (List.range s.progLen).map s.programWord

/-- `n_noop` of 40 R107. -/
def nNoop (ws : List Word) : Nat := ws.countP fun w => decide (decode w = .instr .noop)

/-- `w` is an ADDX. -/
def isAddx (w : Word) : Bool :=
  match decode w with
  | .instr (.addx _) => true
  | .instr .noop => false
  | .illegal _ => false

/-- `n_addx` of 40 R107. -/
def nAddx (ws : List Word) : Nat := ws.countP isAddx

/-- The cycle count `C = n_noop + 2 * n_addx` (40 R107). -/
def State.cycleCount (s : State) : Nat := nNoop s.program + 2 * nAddx s.program

/-- The program runs without a fault: `RunToHalt` with no budget ends clean (40 R107 "if it does not fault"). -/
def State.faultFree (s : State) : Prop := (s.runToHaltState none).clean

/-- A state with what no rule and no output reads put to one value: the contents of an empty latch (93 S1, D24) and
the model's count of free values. -/
def State.visible (s : State) : State :=
  { s with
    latch := if s.latch.valid then s.latch else { s.latch with op := .noop, delta := 0 }
    freeDraws := 0 }

end Sys2Proof.Machine
end

