-- ==== Sys2Proof/Certificates/Slice0/Obligations.lean ====
section
/-! DEFINITION. The statements for the provers: what the spec's rules say the block does, over every state and
operand. -/

open Sys2Proof Sys2Proof.Machine

/-! ### Encoding, assembly, loading -/

/-- R81: the spec's encoding examples, assembled and decoded. -/
def Obligations.EncodingExamplesAssembleAndDecode : Prop :=
  (assemble "noop".toList = .ok [0x00000000] ∧ decode 0x00000000 = .instr .noop) ∧
  (assemble "addx 3".toList = .ok [0x01000003] ∧ decode 0x01000003 = .instr (.addx 3)) ∧
  (assemble "addx -5".toList = .ok [0x01FFFFFB] ∧ decode 0x01FFFFFB = .instr (.addx (-5))) ∧
  (assemble "addx 0".toList = .ok [0x01000000] ∧ decode 0x01000000 = .instr (.addx 0)) ∧
  (assemble "addx 8388607".toList = .ok [0x017FFFFF] ∧ decode 0x017FFFFF = .instr (.addx 8388607)) ∧
  (assemble "addx -8388608".toList = .ok [0x01800000] ∧ decode 0x01800000 = .instr (.addx (-8388608))) ∧
  assemble "addx 8388608".toList = .error .parseError ∧
  (∃ why, decode 0x00000001 = .illegal why) ∧ (∃ why, decode 0x02000000 = .illegal why) ∧
  (∃ why, decode 0xFF000000 = .illegal why)

/-- R75, R78: decoding the encoding of any well-formed instruction gives it back, whatever its operand. -/
def Obligations.DecodeOfEncode : Prop :=
  ∀ i : Instr, wellFormed i = true → decode (encode i) = .instr i

/-- R75, R78: a word that decodes is the encoding of the well-formed instruction it decodes to, and of no other. -/
def Obligations.EncodeOfDecode : Prop :=
  ∀ (w : Word) (i : Instr), decode w = .instr i →
    wellFormed i = true ∧ encode i = w ∧ ∀ j, wellFormed j = true → encode j = w → j = i

/-- R72: the opcode map with the latencies. -/
def Obligations.OpcodeMap : Prop :=
  ∀ w : Word,
    (opcOf w = 0x00 → imm24Of w = 0 → decode w = .instr .noop ∧ latency (opOf .noop) = 0) ∧
    (opcOf w = 0x00 → imm24Of w ≠ 0 → ∃ why, decode w = .illegal why) ∧
    (opcOf w = 0x01 → ∃ delta, decode w = .instr (.addx delta) ∧ latency (opOf (.addx delta)) = 1) ∧
    (0x02 ≤ (opcOf w).toNat → ∃ why, decode w = .illegal why)

/-- R73: ADDX's delta is the signed value of `w[23:0]`, lies in -8388608..8388607, and enters the latch unchanged,
because it fits the accumulator at every width R8 allows. -/
def Obligations.AddxDeltaIsSignExtended : Prop :=
  ∀ (w : Word) (delta : Int), decode w = .instr (.addx delta) →
    delta = (if w.toNat % 2 ^ 24 < 2 ^ 23 then ((w.toNat % 2 ^ 24 : Nat) : Int)
      else ((w.toNat % 2 ^ 24 : Nat) : Int) - 2 ^ 24) ∧
    -8388608 ≤ delta ∧ delta ≤ 8388607 ∧
    ∀ (p : Params) (cnt : BitVec 1),
      IntFits p.accW delta ∧ (Latch.holding p.accW (.addx delta) cnt).delta = delta

/-- R53, D12: words written as a little-endian byte image are read back, byte `4k + j` being bits `8j+7:8j` of word
`k`. -/
def Obligations.ByteImageRoundTrip : Prop :=
  ∀ ws : List Word,
    wordsOfImage (imageOfWords ws) = .ok ws ∧
    ∀ (k : Nat) (w : Word), ws[k]? = some w → ∀ j, j < 4 →
      (imageOfWords ws)[4 * k + j]? = some (BitVec.ofNat 8 (w.toNat / 2 ^ (8 * j)))

/-- R193, R150, R56: loading a program that fits PC_W puts word `k` at index `k`, sets PROG_LEN, and leaves the
registers as reset does; a longer program is refused (D6). -/
def Obligations.LoadPlacesTheProgram : Prop :=
  ∀ (s : State) (ws : List Word),
    (ws.length < 2 ^ s.params.pcW → ∃ t, s.load ws = .ok t ∧ t.progLen = ws.length ∧ t.program = ws ∧
      t = State.resetFor s.params t.imem ws.length s.freeDraws ∧ Memory.wf t.imem) ∧
    (2 ^ s.params.pcW ≤ ws.length → s.load ws = .error .programTooLong)

/-- R61: every fetch of index `k`, after any edges of a run, returns the word the loader placed at `k`. -/
def Obligations.FetchReturnsTheLoadedWord : Prop :=
  ∀ (p : Params) (ws : List Word) (t : State) (es : List (Bool × Bool)) (k : Nat) (w : Word),
    boot p ws = .ok t → ws[k]? = some w → (t.afterEdges es).programWord k = w

/-- R74, R78: a text that assembles gives one word a line, each a legal word. -/
def Obligations.AssembledWordsAreLegal : Prop :=
  ∀ (text : List Char) (ws : List Word), assemble text = .ok ws →
    ws.length = (splitLines text).length ∧
    ∀ w ∈ ws, ∃ i, wellFormed i = true ∧ decode w = .instr i

/-! ### The edge, reset, and the step's form -/

/-- R43: reset wins over step; with neither no register changes; a step edge is `step`. -/
def Obligations.EdgePriority : Prop :=
  ∀ (s : State) (stepIn : Bool),
    clockEdge true stepIn s = .next (State.resetFor s.params s.imem s.progLen s.freeDraws) ∧
    clockEdge false true s = step s ∧
    clockEdge false false s = .next s

/-- R190: at an edge with `rst = 1` every register takes its reset value, whatever `step` is and whatever the state;
program memory, `prog_len` and the parameters are not touched. -/
def Obligations.ResetEdgeLeavesResetValues : Prop :=
  ∀ (s : State) (stepIn : Bool), ∃ t, clockEdge true stepIn s = .next t ∧
    t.acc = 1 ∧ t.pc = 0 ∧ t.latch.valid = false ∧ t.latch.cnt = 0 ∧ t.cycle = 0 ∧ t.fault = 0 ∧
    (∀ i, t.cell i = false) ∧ t.wrIdx = 0 ∧ t.imem = s.imem ∧ t.progLen = s.progLen ∧ t.params = s.params

/-- The invariant holds at reset. That the empty latch's delta fits its width rests on the model's choice 0 for it
(log 4), that PROG_LEN is 0 at `State.reset` on log 6. It holds at `State.reset` and after reset of any block whose program memory is canonical and
whose PROG_LEN fits its port. -/
def Obligations.ResetMeetsTheInvariant : Prop :=
  State.reset.Inv ∧
  ∀ (p : Params) (m : List Host.Cell) (n free : Nat), Memory.wf m → n < 2 ^ p.pcW →
    (State.resetFor p m n free).Inv

/-- R100, R103: a step of a runnable block is `exec` of the instruction in hand: the one the word at `pc` decodes to
while the latch is empty, the one in the latch while it is full. Nothing stands around `exec`. -/
def Obligations.StepRunsTheInstructionInHand : Prop :=
  (∀ (s : State) (i : Instr), s.runnable = true → s.latch.valid = false →
    decode (Memory.readWord s.imem s.pc) = .instr i → step s = exec i s) ∧
  (∀ (s : State) (i : Instr), s.runnable = true → s.latch.valid = true →
    s.latch.instr = i → step s = exec i s)

/-- The model's own (log 6): an instruction placed by `withFetchWord` is what the next step runs. -/
def Obligations.PlacedWordRunsNext : Prop :=
  ∀ (s : State) (w : Nat) (i : Instr), Memory.wf s.imem → decode (BitVec.ofNat 32 w) = .instr i →
    step (s.withFetchWord 32 w) = exec i (s.withFetchWord 32 w)

/-! ### NOOP -/

/-- R120, R105: NOOP with nothing in flight (or with its counter at 0) commits in that step: `acc` is unchanged,
the latch empty, `pc` and `cycle` one higher, the pixel writer acts once, and nothing else changes. -/
def Obligations.NoopCommitsInOneStep : Prop :=
  ∀ s : State, (s.latch.valid = false ∨ s.latch.cnt = 0) →
    ∃ t, exec .noop s = .next t ∧ t.acc = s.acc ∧ Committed s t

/-- NOOP's frame (R120 "no register written"): whatever the state, `acc`, the fault register, the parameters, PROG_LEN
and every byte of program memory are unchanged, and so is every display cell but the one at `wr_idx`. -/
def Obligations.NoopFrame : Prop :=
  ∀ s t : State, exec .noop s = .next t →
    t.acc = s.acc ∧ t.fault = s.fault ∧ SameProgram s t ∧
    (∀ i, i ≠ s.wrIdx.toNat → t.cell i = s.cell i)

/-- R120's corner case: a program of N NOOPs has `acc = 1` throughout, is at `pc = k`, `cycle = k` after k steps, and is
Halted exactly after N. -/
def Obligations.NoopProgramHaltsAtItsLength : Prop :=
  ∀ s : State, s.InRange → (∀ k, k < s.progLen → s.programWord k = 0) →
    ∀ k, k ≤ s.progLen →
      (s.applyReset.afterN k).acc = 1 ∧ (s.applyReset.afterN k).pc = k ∧ (s.applyReset.afterN k).cycle = k ∧
      (s.applyReset.afterN k).latch.valid = false ∧ (s.applyReset.afterN k).fault = 0 ∧
      ((s.applyReset.afterN k).halted = true ↔ k = s.progLen)

/-! ### ADDX -/

/-- R121, R104: the first step of any encodable ADDX puts it in the latch with counter 0 and commits nothing. -/
def Obligations.AddxFirstStepLatches : Prop :=
  ∀ (delta : Int) (s : State), wellFormed (.addx delta) = true → s.latch.valid = false →
    ∃ t, exec (.addx delta) s = .next t ∧ CountedDown s t (.addx delta) 0

/-- R121, R105: the second step of an ADDX whose sum fits ACC_W bits commits it: `acc` is the integer sum. -/
def Obligations.AddxSecondStepCommits : Prop :=
  ∀ (delta : Int) (s : State), s.latch.valid = true → s.latch.cnt = 0 →
    IntFits s.params.accW (s.acc + delta) →
    ∃ t, exec (.addx delta) s = .next t ∧ t.acc = s.acc + delta ∧ Committed s t

/-- ADDX's frame: whatever the state, the parameters, PROG_LEN and program memory are unchanged, every display cell but
the one at `wr_idx` too; `acc` changes only to the sum, and only at a commit; the fault register changes only by
ACC_OVERFLOW's bit, and then nothing else does. -/
def Obligations.AddxFrame : Prop :=
  ∀ (delta : Int) (s t : State), exec (.addx delta) s = .next t →
    SameProgram s t ∧ (∀ i, i ≠ s.wrIdx.toNat → t.cell i = s.cell i) ∧
    (t.acc = s.acc ∨ (t.acc = s.acc + delta ∧ s.latch.valid = true ∧ s.latch.cnt = 0 ∧ Committed s t)) ∧
    (t.fault = s.fault ∨ t = { s with fault := s.fault ||| 0b010 })

/-- R110: the life of one ADDX at index `pc`, fetched from an Idle engine. -/
def Obligations.AddxTakesTwoSteps : Prop :=
  ∀ (s : State) (delta : Int), s.InRange → s.runnable = true → s.latch.valid = false →
    decode (Memory.readWord s.imem s.pc) = .instr (.addx delta) →
    IntFits s.params.accW (s.acc + delta) →
    ∃ t u, step s = .next t ∧ step t = .next u ∧
      (t.pc = s.pc ∧ t.latch.valid = true ∧ t.latch.cnt = 0 ∧ t.acc = s.acc ∧ t.runnable = true) ∧
      (u.pc = s.pc + 1 ∧ u.latch.valid = false ∧ u.latch.cnt = 0 ∧ u.acc = s.acc + delta ∧
        u.runnable = decide (s.pc + 1 < s.progLen))

/-! ### Whole-machine rules of the step -/

/-- R22: no edge changes `acc` but reset, and a step that commits an ADDX whose sum fits. -/
def Obligations.OnlyAddxCommitWritesAcc : Prop :=
  ∀ (rst stepIn : Bool) (s t : State), clockEdge rst stepIn s = .next t → t.acc ≠ s.acc →
    (rst = true ∧ t.acc = 1) ∨
    (rst = false ∧ stepIn = true ∧ s.runnable = true ∧ s.latch.valid = true ∧ s.latch.op = .addx ∧
      s.latch.cnt = 0 ∧ t.acc = s.acc + s.latch.delta ∧ IntFits s.params.accW t.acc ∧ Committed s t)

/-- R26: no edge changes `pc` but reset and a commit, which adds 1; in a state of a run it never wraps. -/
def Obligations.OnlyCommitAdvancesPc : Prop :=
  ∀ (rst stepIn : Bool) (s t : State), clockEdge rst stepIn s = .next t → t.pc ≠ s.pc →
    (rst = true ∧ t.pc = 0) ∨
    (rst = false ∧ stepIn = true ∧ s.runnable = true ∧ Committed s t ∧
      (s.Inv → s.pc < s.progLen ∧ t.pc = s.pc + 1 ∧ t.pc ≤ s.progLen ∧ s.progLen ≤ 2 ^ s.params.pcW - 1))

/-- R106: every step that does not fault adds 1 to `cycle` (in CYCLE_W bits, which a run never overflows); reset sets
it to 0; nothing else changes it. -/
def Obligations.CycleCounterRule : Prop :=
  ∀ (rst stepIn : Bool) (s t : State), clockEdge rst stepIn s = .next t →
    (rst = true → t.cycle = 0) ∧
    (rst = false → stepIn = true → t.fault = 0 →
      t.cycle = (s.cycle + 1) % 2 ^ s.params.cycleW ∧ (s.Inv → t.cycle = s.cycle + 1)) ∧
    (rst = false → stepIn = true → t.fault ≠ 0 → t.cycle = s.cycle) ∧
    (rst = false → stepIn = false → t.cycle = s.cycle)

/-- R102, R104, R105: a step that does not fault counts down or commits, by the counter seen after fetch, never both. -/
def Obligations.CountDownOrCommit : Prop :=
  ∀ s t : State, s.InRange → step s = .next t → t.fault = 0 →
    ∃ i, s.inHand = .instr i ∧
      ((s.counter i ≠ 0 ∧ CountedDown s t i (s.counter i - 1) ∧ ¬Committed s t) ∨
       (s.counter i = 0 ∧ Committed s t ∧ ∀ j c, ¬CountedDown s t j c))

/-- R111: after an allowed step of a run, `runnable` is 0 exactly after a fault or after the commit of the last
instruction. -/
def Obligations.RunnableFallsAtTheEnd : Prop :=
  ∀ s t : State, s.Inv → s.runnable = true → step s = .next t →
    (t.runnable = false ↔ (t.fault ≠ 0 ∨ (Committed s t ∧ s.pc = s.progLen - 1)))

/-! ### Invariants every step keeps -/

/-- R28: from any state in which a valid latch holds an ADDX and the counter is 0, every edge leads to such a state,
and reset does. -/
def Obligations.LatchHoldsAddxBetweenSteps : Prop :=
  (∀ (p : Params) (m : List Host.Cell) (n free : Nat),
    (State.resetFor p m n free).latch.valid = false ∧ (State.resetFor p m n free).latch.cnt = 0) ∧
  ∀ (rst stepIn : Bool) (s t : State), (s.latch.valid = true → s.latch.op = .addx) → s.latch.cnt = 0 →
    clockEdge rst stepIn s = .next t →
    (t.latch.valid = true → t.latch.op = .addx) ∧ t.latch.cnt = 0

/-- R20, by the model's holding registers as integers (log 2): every step keeps every register within its width, whatever else the state is. -/
def Obligations.StepKeepsWidths : Prop :=
  ∀ s t : State, s.InRange → step s = .next t → t.InRange

/-- R24, R25, R28, R29, R35, R171: the machine's invariant is kept by every step. -/
def Obligations.StepKeepsTheInvariant : Prop :=
  ∀ s t : State, s.Inv → step s = .next t → t.Inv

/-- R43, R150: whatever edges a host makes, from a loaded program on, the invariant holds. That the empty latch's delta
fits its width after the load's reset, and after every reset edge, rests on the model's choice 0 for it (log 4). -/
def Obligations.EveryHostRunKeepsTheInvariant : Prop :=
  ∀ (p : Params) (ws : List Word) (t : State) (es : List (Bool × Bool)),
    boot p ws = .ok t → (t.afterEdges es).Inv

/-- R26, R29: in a state of a run, an allowed step wraps neither `pc` nor `cycle`. -/
def Obligations.CountersNeverWrap : Prop :=
  ∀ s : State, s.Inv → s.runnable = true →
    s.pc + 1 < 2 ^ s.params.pcW ∧ s.cycle + 1 < 2 ^ s.params.cycleW ∧ s.cycle < 2 * s.progLen

/-! ### Faults -/

/-- R172: ILLEGAL_INSTRUCTION is raised exactly by the fetch of an illegal word, and records its bit only. -/
def Obligations.IllegalInstructionFault : Prop :=
  (FaultCause.code .illegalInstruction = 0 ∧ ∀ s : State, s.hasFault .illegalInstruction = s.fault.getLsbD 0) ∧
  (∀ s : State, s.runnable = true → s.latch.valid = false →
    (let w := Memory.readWord s.imem s.pc
     (opcOf w ≠ 0x00 ∧ opcOf w ≠ 0x01) ∨ (opcOf w = 0x00 ∧ imm24Of w ≠ 0)) →
    step s = .next { s with fault := s.fault ||| 0b001 }) ∧
  (∀ s t : State, step s = .next t → s.hasFault .illegalInstruction = false →
    t.hasFault .illegalInstruction = true →
    s.runnable = true ∧ s.latch.valid = false ∧ ∃ why, decode (Memory.readWord s.imem s.pc) = .illegal why)

/-- R173: ACC_OVERFLOW is raised exactly by the commit of an ADDX whose true sum leaves ACC_W bits, in its second step,
and records its bit only. -/
def Obligations.AccOverflowFault : Prop :=
  (FaultCause.code .accOverflow = 1 ∧ ∀ s : State, s.hasFault .accOverflow = s.fault.getLsbD 1) ∧
  (∀ s : State, s.runnable = true → s.latch.valid = true → s.latch.op = .addx → s.latch.cnt = 0 →
    ¬IntFits s.params.accW (s.acc + s.latch.delta) →
    step s = .next { s with fault := s.fault ||| 0b010 }) ∧
  (∀ s t : State, step s = .next t → s.hasFault .accOverflow = false → t.hasFault .accOverflow = true →
    s.runnable = true ∧ s.latch.valid = true ∧ s.latch.op = .addx ∧ s.latch.cnt = 0 ∧
    ¬IntFits s.params.accW (s.acc + s.latch.delta))

/-- R174: CONTRACT_VIOLATION is raised exactly by a step requested while `runnable = 0`, and records its bit only. -/
def Obligations.ContractViolationFault : Prop :=
  (FaultCause.code .contractViolation = 2 ∧ ∀ s : State, s.hasFault .contractViolation = s.fault.getLsbD 2) ∧
  (∀ s : State, s.runnable = false → step s = .next { s with fault := s.fault ||| 0b100 }) ∧
  (∀ s t : State, step s = .next t → s.hasFault .contractViolation = false →
    t.hasFault .contractViolation = true → s.runnable = false)

/-- R171: a step that raises a fault writes nothing but its one fault bit, which is ORed in; after ILLEGAL_INSTRUCTION the latch is
empty and `pc` is at the illegal word; after ACC_OVERFLOW the latch still holds the ADDX, and in a run `pc` is its
index. -/
def Obligations.FaultsArePrecise : Prop :=
  ∀ s t : State, step s = .next t → t.fault ≠ 0 →
    (∃ f : FaultCause, f.mask = BitVec.twoPow 3 f.code ∧ t = { s with fault := s.fault ||| f.mask }) ∧
    (s.fault = 0 → t.hasFault .illegalInstruction = true →
      t.latch.valid = false ∧ ∃ why, decode (Memory.readWord t.imem t.pc) = .illegal why) ∧
    (s.fault = 0 → t.hasFault .accOverflow = true → t.latch.valid = true ∧ t.latch.op = .addx ∧
      (s.Inv → t.fetch = .instr t.latch.instr))

/-- R178: a step raises at most one fault; the contract check comes first, and the other two cannot meet. -/
def Obligations.AtMostOneFaultAStep : Prop :=
  ∀ s t : State, step s = .next t →
    (s.runnable = false → t.fault = s.fault ||| 0b100) ∧
    (s.runnable = true → s.fault = 0 ∧
      ((t.fault = 0b001 ∧ s.latch.valid = false ∧ ∃ why, s.fetch = .illegal why) ∨
       (t.fault = 0b010 ∧ s.latch.valid = true ∧ s.latch.op = .addx ∧ s.latch.cnt = 0) ∨
       t.fault = 0))

/-- R179, R170: from a Faulted state, edges without reset change nothing but the fault register, into which a step ORs
bit 2, so the first cause is never lost; a reset clears it. -/
def Obligations.OnlyResetLeavesFaulted : Prop :=
  ∀ (s : State) (es : List (Bool × Bool)), s.faulted = true →
    ((∀ e ∈ es, e.1 = false) →
      (s.afterEdges es).faulted = true ∧ (s.afterEdges es).runnable = false ∧
      s.afterEdges es =
        { s with fault := if (false, true) ∈ es then s.fault ||| 0b100 else s.fault }) ∧
    ∀ stepIn, (s.afterEdges (es ++ [(true, stepIn)])).faulted = false

/-- R113: no step is allowed from Halted and only reset leaves it; PROG_LEN = 0 is Halted at reset with `cycle = 0`. -/
def Obligations.OnlyResetLeavesHalted : Prop :=
  (∀ s : State, s.halted = true → s.runnable = false ∧
    ∀ es : List (Bool × Bool), (∀ e ∈ es, e.1 = false) →
      (s.afterEdges es).halted = true ∧
      s.afterEdges es = { s with fault := (s.afterEdges es).fault }) ∧
  (∀ (p : Params) (m : List Host.Cell) (free : Nat),
    (State.resetFor p m 0 free).halted = true ∧ (State.resetFor p m 0 free).cycle = 0)

/-! ### The display buffer and the pixel writer -/

/-- R132, R138: the pixel function is lit exactly on the three columns around the accumulator; the table's values. -/
def Obligations.PixelFunction : Prop :=
  (∀ (a : Int) (col : Nat), lit a col = true ↔ ((col : Int) = a - 1 ∨ (col : Int) = a ∨ (col : Int) = a + 1)) ∧
  lit 1 0 = true ∧ lit 1 2 = true ∧ lit 1 3 = false ∧ lit (-1) 0 = true ∧ lit (-2) 0 = false ∧
  lit 0 39 = false ∧ lit 39 39 = true ∧ lit 40 39 = true ∧ lit 41 39 = false ∧
  lit (-2147483648) 0 = false ∧ lit 2147483647 39 = false ∧
  lit (-1) 39 = false ∧ (∀ col, col < Config.W → (lit 40 col = true ↔ col = 39))

/-- R133: the writer acts in every allowed step that does not fault, from the accumulator before the step; a step that
faults, a contract violation too, writes no pixel. -/
def Obligations.WriterActsInEveryStep : Prop :=
  ∀ s t : State, step s = .next t →
    (t.fault = 0 → WriterActs s t) ∧ (t.fault ≠ 0 → t.disp = s.disp ∧ t.wrIdx = s.wrIdx)

/-- R134: after reset and k allowed, non-faulting steps, cell `i` is the pixel of the accumulator during cycle i+1 for
`i < min(k, NCELL)`, and unlit otherwise. -/
def Obligations.DisplayAfterKSteps : Prop :=
  ∀ (s : State) (k : Nat), (s.applyReset.afterN k).fault = 0 →
    (s.applyReset.afterN k).wrIdx.toNat = min k Config.NCELL ∧
    (∀ i, i < min k Config.NCELL →
      (s.applyReset.afterN k).cell i = lit (s.applyReset.afterN i).acc (i % Config.W)) ∧
    (∀ i, min k Config.NCELL ≤ i → (s.applyReset.afterN k).cell i = false)

/-- R137, R56: `raster_full` is `wr_idx = NCELL`; once it holds, no step changes the buffer; the host reads any cell,
and 0 beyond NCELL. -/
def Obligations.FullRasterStaysAndIsRead : Prop :=
  (∀ s : State, s.rasterFull = true ↔ s.wrIdx.toNat = Config.NCELL) ∧
  (∀ (s : State) (es : List (Bool × Bool)), s.rasterFull = true → (∀ e ∈ es, e.1 = false) →
    (s.afterEdges es).disp = s.disp ∧ (s.afterEdges es).rasterFull = true) ∧
  (∀ (s : State) (a : BitVec 8),
    (∀ h : a.toNat < Config.NCELL, s.dispRdata a = s.disp[a.toNat]) ∧
    (Config.NCELL ≤ a.toNat → s.dispRdata a = false))

/-- R160: the rendered grid: `#` or `.` for cell `40r + c` at character `41r + c`, one LF after each of the first five
rows, none after the last. -/
def Obligations.RenderedGrid : Prop :=
  ∀ d : Vector Bool Config.NCELL,
    (render d).length = 245 ∧
    (∀ r c : Nat, r < 6 → c < 40 → ∀ h : 40 * r + c < Config.NCELL,
      (render d)[41 * r + c]? = some (if d[40 * r + c] then '#' else '.')) ∧
    (∀ r : Nat, r < 5 → (render d)[41 * r + 40]? = some '\n')

/-! ### The host's procedures -/

/-- R152: the driver's loop steps only while runnable, so it never sets CONTRACT_VIOLATION. -/
def Obligations.DriverNeverViolatesTheContract : Prop :=
  ∀ (go : State → Bool) (n : Nat) (s : State), s.hasFault .contractViolation = false →
    (s.drive go n).hasFault .contractViolation = false ∧
    ∃ k, k ≤ n ∧ s.drive go n = s.afterN k ∧ ∀ j, j < k → (s.afterN j).runnable = true

/-- R153, R154: `RunToHalt` ends: with no budget the engine is then Halted or Faulted, with a budget it may have been
met instead; at most `2 * PROG_LEN` steps were made, each while runnable and within the budget. -/
def Obligations.RunToHaltEnds : Prop :=
  ∀ (s : State) (budget : Option Nat), s.InRange →
    ((s.runToHaltState budget).runnable = false ∨ ∃ b, budget = some b ∧ b ≤ (s.runToHaltState budget).cycle) ∧
    ∃ k, k ≤ 2 * s.progLen ∧ s.runToHaltState budget = s.applyReset.afterN k ∧
      ∀ j, j < k → (s.applyReset.afterN j).runnable = true ∧ ∀ b, budget = some b → j < b

/-- R107: a program that does not fault runs to Halted in exactly `C = n_noop + 2 * n_addx` steps, with `cycle = C` and
`pc = PROG_LEN`. -/
def Obligations.CycleCountOfAProgram : Prop :=
  ∀ s : State, s.InRange → s.faultFree →
    (∀ k, k < s.cycleCount → (s.applyReset.afterN k).runnable = true) ∧
    (s.applyReset.afterN s.cycleCount).halted = true ∧ (s.applyReset.afterN s.cycleCount).fault = 0 ∧
    (s.applyReset.afterN s.cycleCount).cycle = s.cycleCount ∧
    (s.applyReset.afterN s.cycleCount).pc = s.progLen ∧
    nNoop s.program + nAddx s.program = s.progLen

/-- R155, R158, R13: if every target's cycle runs, the checkpoint sum is the sum of `t * acc_(t-1)`, an unbounded
integer. -/
def Obligations.CheckpointSum : Prop :=
  ∀ (s : State) (targets : List Int), s.InRange → targetsOk targets →
    (∀ t ∈ targets, (s.applyReset.afterN (t.toNat - 1)).runnable = true) →
    s.checkpoint targets =
      .ok (targets.map fun t => t * (s.applyReset.afterN (t.toNat - 1)).acc).sum

/-- R156: on a program that does not fault, InsufficientCycles is returned exactly when a target exceeds the cycle
count; a run that faults before its last target is sampled returns EngineFault with the fault bits; an empty list
gives 0 for every program. -/
def Obligations.CheckpointErrors : Prop :=
  (∀ (s : State) (targets : List Int), s.InRange → targetsOk targets → s.faultFree →
    (s.checkpoint targets = .error .insufficientCycles ↔ ∃ t ∈ targets, (s.cycleCount : Int) < t)) ∧
  (∀ (s : State) (targets : List Int), s.InRange → targetsOk targets → ¬s.faultFree →
    (∃ t ∈ targets, (s.applyReset.afterN (t.toNat - 1)).runnable = false) →
    s.checkpoint targets = .error (.engineFault (s.runToHaltState none).fault)) ∧
  (∀ s : State, s.checkpoint [] = .ok 0) ∧
  (∀ (s : State) (t : Int) (ts : List Int), s.progLen = 0 → targetsOk (t :: ts) →
    s.checkpoint (t :: ts) = .error .insufficientCycles)

/-- R155, R162: a checkpoint run's end state is the one after reset and some steps, each made while runnable. The run
ends where the last target was sampled, clean, or else not runnable, with the error `Stop()` gives there; a refused list
makes no step. -/
def Obligations.CheckpointRunEnds : Prop :=
  (∀ (s : State) (targets : List Int), s.InRange → targetsOk targets →
    ∃ k, (s.checkpointRun targets).endState = s.applyReset.afterN k ∧
      (∀ j, j < k → (s.applyReset.afterN j).runnable = true) ∧
      ((∃ sum, (s.checkpointRun targets).value = .ok sum ∧ (s.checkpointRun targets).clean ∧
          (targets = [] → k = 0) ∧
          (∀ t, targets.getLast? = some t → k = t.toNat - 1 ∧ (s.applyReset.afterN k).runnable = true)) ∨
       ((s.applyReset.afterN k).runnable = false ∧
          ((s.checkpointRun targets).clean →
            (s.checkpointRun targets).value = .error .insufficientCycles) ∧
          (¬(s.checkpointRun targets).clean →
            (s.checkpointRun targets).value = .error (.engineFault (s.applyReset.afterN k).fault))))) ∧
  (∀ (s : State) (targets : List Int), ¬targetsOk targets → (s.checkpointRun targets).endState = s)

/-- R157: a list that is not strictly ascending, or holds an index below 1, is refused. -/
def Obligations.BadTargetsAreRefused : Prop :=
  (∀ (s : State) (pre mid post : List Int) (t u : Int), u ≤ t →
    s.checkpoint (pre ++ t :: (mid ++ u :: post)) = .error .badTargets) ∧
  (∀ (s : State) (pre post : List Int) (t : Int), t < 1 →
    s.checkpoint (pre ++ t :: post) = .error .badTargets)

/-- R159: the raster run returns the buffer after the steps up to the first state that is full or not runnable. -/
def Obligations.RasterRun : Prop :=
  ∀ s : State, ∃ k, k ≤ Config.NCELL ∧ s.raster = (s.applyReset.afterN k).disp ∧
    (∀ j, j < k → (s.applyReset.afterN j).runnable = true ∧ (s.applyReset.afterN j).rasterFull = false) ∧
    ((s.applyReset.afterN k).runnable = false ∨ (s.applyReset.afterN k).rasterFull = true)

/-- R161, R191: each procedure starts from reset, so its result depends on the program and the parameters only, not on
the registers it is started with, nor on any free value. -/
def Obligations.RunsDependOnlyOnTheProgram : Prop :=
  ∀ (s u : State), u.params = s.params → u.imem = s.imem → u.progLen = s.progLen →
    (∀ budget, u.runToHalt budget = s.runToHalt budget) ∧
    (∀ targets, u.checkpoint targets = s.checkpoint targets) ∧
    u.raster = s.raster

/-- 93 S1, D24: what an empty latch holds never shows: putting it (and the count of free values) to one value changes
no output now, and no step makes it show later. -/
def Obligations.EmptyLatchContentsNeverShow : Prop :=
  ∀ s : State,
    s.visible.outputs = s.outputs ∧ s.visible.trace = s.trace ∧ s.visible.after.visible = s.after.visible

/-- R40, R41: the ports carry the registers without loss, and `latch_op` reads 0 while the latch is empty. -/
def Obligations.PortsCarryTheRegisters : Prop :=
  ∀ s : State, s.InRange →
    s.outputs.acc.toInt = s.acc ∧ s.outputs.pcOut.toNat = s.pc ∧ s.outputs.imemAddr.toNat = s.pc ∧
    s.outputs.cycleOut.toNat = s.cycle ∧ s.outputs.fault = s.fault ∧
    s.outputs.latchValid = s.latch.valid ∧ s.outputs.wrIdxOut = s.wrIdx ∧
    (s.latch.valid = false → s.outputs.latchOp = 0) ∧
    (s.latch.valid = true → (s.outputs.latchOp = 1 ↔ s.latch.op = .addx)) ∧
    s.outputs.halted = s.halted ∧ s.outputs.faulted = s.faulted ∧ s.outputs.runnable = s.runnable ∧
    s.outputs.rasterFull = s.rasterFull

/-- R30, R31: the engine is in exactly one logical state, by the predicates on its registers, and the three status
outputs follow. -/
def Obligations.LogicalStates : Prop :=
  ∀ s : State,
    (s.logicalState = .idle ↔ s.latch.valid = false ∧ s.pc < s.progLen) ∧
    (s.logicalState = .executing ↔ s.latch.valid = true) ∧
    (s.logicalState = .halted ↔ s.latch.valid = false ∧ s.progLen ≤ s.pc) ∧
    (s.halted = true ↔ s.logicalState = .halted) ∧
    (s.faulted = true ↔ s.fault ≠ 0) ∧
    (s.runnable = true ↔ s.logicalState ≠ .halted ∧ s.fault = 0)
end

