-- ==== Sys2Proof/Laws/State.lean ====
section
/-! SUPPORT. What each named update of the state does to each field, so that no proof unfolds a record update. -/

namespace Sys2Proof.Machine

variable (s : State)

/-! ### raise -/

@[simp] theorem raise_params (f : FaultCause) : (s.raise f).params = s.params := rfl
@[simp] theorem raise_acc (f : FaultCause) : (s.raise f).acc = s.acc := rfl
@[simp] theorem raise_pc (f : FaultCause) : (s.raise f).pc = s.pc := rfl
@[simp] theorem raise_latch (f : FaultCause) : (s.raise f).latch = s.latch := rfl
@[simp] theorem raise_cycle (f : FaultCause) : (s.raise f).cycle = s.cycle := rfl
@[simp] theorem raise_fault (f : FaultCause) : (s.raise f).fault = s.fault ||| f.mask := rfl
@[simp] theorem raise_disp (f : FaultCause) : (s.raise f).disp = s.disp := rfl
@[simp] theorem raise_wrIdx (f : FaultCause) : (s.raise f).wrIdx = s.wrIdx := rfl
@[simp] theorem raise_imem (f : FaultCause) : (s.raise f).imem = s.imem := rfl
@[simp] theorem raise_progLen (f : FaultCause) : (s.raise f).progLen = s.progLen := rfl
@[simp] theorem raise_freeDraws (f : FaultCause) : (s.raise f).freeDraws = s.freeDraws := rfl

/-! ### countDown -/

@[simp] theorem countDown_params (i : Instr) (cnt : BitVec 1) : (s.countDown i cnt).params = s.params := rfl
@[simp] theorem countDown_acc (i : Instr) (cnt : BitVec 1) : (s.countDown i cnt).acc = s.acc := rfl
@[simp] theorem countDown_pc (i : Instr) (cnt : BitVec 1) : (s.countDown i cnt).pc = s.pc := rfl
@[simp] theorem countDown_latch (i : Instr) (cnt : BitVec 1) : (s.countDown i cnt).latch = Latch.holding s.params.accW i (cnt - 1) := rfl
@[simp] theorem countDown_cycle (i : Instr) (cnt : BitVec 1) : (s.countDown i cnt).cycle = s.cycle := rfl
@[simp] theorem countDown_fault (i : Instr) (cnt : BitVec 1) : (s.countDown i cnt).fault = s.fault := rfl
@[simp] theorem countDown_disp (i : Instr) (cnt : BitVec 1) : (s.countDown i cnt).disp = s.disp := rfl
@[simp] theorem countDown_wrIdx (i : Instr) (cnt : BitVec 1) : (s.countDown i cnt).wrIdx = s.wrIdx := rfl
@[simp] theorem countDown_imem (i : Instr) (cnt : BitVec 1) : (s.countDown i cnt).imem = s.imem := rfl
@[simp] theorem countDown_progLen (i : Instr) (cnt : BitVec 1) : (s.countDown i cnt).progLen = s.progLen := rfl
@[simp] theorem countDown_freeDraws (i : Instr) (cnt : BitVec 1) : (s.countDown i cnt).freeDraws = s.freeDraws := rfl

/-! ### retire -/

@[simp] theorem retire_params : (s.retire).params = s.params := rfl
@[simp] theorem retire_acc : (s.retire).acc = s.acc := rfl
@[simp] theorem retire_pc : (s.retire).pc = (s.pc + 1) % 2 ^ s.params.pcW := rfl
@[simp] theorem retire_latch : (s.retire).latch = s.clearLatch.latch := rfl
@[simp] theorem retire_cycle : (s.retire).cycle = s.cycle := rfl
@[simp] theorem retire_fault : (s.retire).fault = s.fault := rfl
@[simp] theorem retire_disp : (s.retire).disp = s.disp := rfl
@[simp] theorem retire_wrIdx : (s.retire).wrIdx = s.wrIdx := rfl
@[simp] theorem retire_imem : (s.retire).imem = s.imem := rfl
@[simp] theorem retire_progLen : (s.retire).progLen = s.progLen := rfl
@[simp] theorem retire_freeDraws : (s.retire).freeDraws = s.freeDraws + 1 := rfl

/-! ### tick -/

@[simp] theorem tick_params : (s.tick).params = s.params := rfl
@[simp] theorem tick_acc : (s.tick).acc = s.acc := rfl
@[simp] theorem tick_pc : (s.tick).pc = s.pc := rfl
@[simp] theorem tick_latch : (s.tick).latch = s.latch := rfl
@[simp] theorem tick_cycle : (s.tick).cycle = (s.cycle + 1) % 2 ^ s.params.cycleW := rfl
@[simp] theorem tick_fault : (s.tick).fault = s.fault := rfl
@[simp] theorem tick_disp : (s.tick).disp = s.disp := rfl
@[simp] theorem tick_wrIdx : (s.tick).wrIdx = s.wrIdx := rfl
@[simp] theorem tick_imem : (s.tick).imem = s.imem := rfl
@[simp] theorem tick_progLen : (s.tick).progLen = s.progLen := rfl
@[simp] theorem tick_freeDraws : (s.tick).freeDraws = s.freeDraws := rfl

/-! ### applyReset -/

@[simp] theorem applyReset_params : (s.applyReset).params = s.params := rfl
@[simp] theorem applyReset_acc : (s.applyReset).acc = 1 := rfl
@[simp] theorem applyReset_pc : (s.applyReset).pc = 0 := rfl
@[simp] theorem applyReset_latch : (s.applyReset).latch = { valid := false, op := .noop, delta := 0, cnt := 0 } := rfl
@[simp] theorem applyReset_cycle : (s.applyReset).cycle = 0 := rfl
@[simp] theorem applyReset_fault : (s.applyReset).fault = 0 := rfl
@[simp] theorem applyReset_disp : (s.applyReset).disp = Vector.replicate Config.NCELL false := rfl
@[simp] theorem applyReset_wrIdx : (s.applyReset).wrIdx = 0 := rfl
@[simp] theorem applyReset_imem : (s.applyReset).imem = s.imem := rfl
@[simp] theorem applyReset_progLen : (s.applyReset).progLen = s.progLen := rfl
@[simp] theorem applyReset_freeDraws : (s.applyReset).freeDraws = s.freeDraws := rfl

/-! ### placeInstr -/

@[simp] theorem placeInstr_params (w : Word) : (s.placeInstr w).params = s.params := rfl
@[simp] theorem placeInstr_acc (w : Word) : (s.placeInstr w).acc = s.acc := rfl
@[simp] theorem placeInstr_pc (w : Word) : (s.placeInstr w).pc = s.placeIndex := rfl
@[simp] theorem placeInstr_latch (w : Word) : (s.placeInstr w).latch = { s.latch with valid := false } := rfl
@[simp] theorem placeInstr_cycle (w : Word) : (s.placeInstr w).cycle = s.cycle := rfl
@[simp] theorem placeInstr_fault (w : Word) : (s.placeInstr w).fault = 0 := rfl
@[simp] theorem placeInstr_disp (w : Word) : (s.placeInstr w).disp = s.disp := rfl
@[simp] theorem placeInstr_wrIdx (w : Word) : (s.placeInstr w).wrIdx = s.wrIdx := rfl
@[simp] theorem placeInstr_imem (w : Word) : (s.placeInstr w).imem = Memory.writeWord s.imem s.placeIndex w := rfl
@[simp] theorem placeInstr_progLen (w : Word) : (s.placeInstr w).progLen = if s.placeIndex < s.progLen then s.progLen else s.placeIndex + 1 := rfl
@[simp] theorem placeInstr_freeDraws (w : Word) : (s.placeInstr w).freeDraws = s.freeDraws := rfl

/-! ### clearLatch (at a commit; `op` and `delta` are free values, so nothing is said of them but this) -/

@[simp] theorem clearLatch_valid : s.clearLatch.latch.valid = false := rfl
@[simp] theorem clearLatch_cnt : s.clearLatch.latch.cnt = 0 := rfl
theorem clearLatch_delta :
    s.clearLatch.latch.delta = (Config.freeLatchDelta s.params.accW s.freeDraws).toInt := rfl

/-! ### The latch -/

@[simp] theorem holding_valid (w : Nat) (i : Instr) (c : BitVec 1) : (Latch.holding w i c).valid = true := rfl
@[simp] theorem holding_op (w : Nat) (i : Instr) (c : BitVec 1) : (Latch.holding w i c).op = opOf i := rfl
@[simp] theorem holding_delta (w : Nat) (i : Instr) (c : BitVec 1) :
    (Latch.holding w i c).delta = narrowInt w (deltaOf i) := rfl
@[simp] theorem holding_cnt (w : Nat) (i : Instr) (c : BitVec 1) : (Latch.holding w i c).cnt = c := rfl

/-! ### writePixel: only the display buffer and its index can change -/

@[simp] theorem writePixel_params (a : Int) : (s.writePixel a).params = s.params := by
  unfold State.writePixel; split <;> rfl
@[simp] theorem writePixel_acc (a : Int) : (s.writePixel a).acc = s.acc := by
  unfold State.writePixel; split <;> rfl
@[simp] theorem writePixel_pc (a : Int) : (s.writePixel a).pc = s.pc := by
  unfold State.writePixel; split <;> rfl
@[simp] theorem writePixel_latch (a : Int) : (s.writePixel a).latch = s.latch := by
  unfold State.writePixel; split <;> rfl
@[simp] theorem writePixel_cycle (a : Int) : (s.writePixel a).cycle = s.cycle := by
  unfold State.writePixel; split <;> rfl
@[simp] theorem writePixel_fault (a : Int) : (s.writePixel a).fault = s.fault := by
  unfold State.writePixel; split <;> rfl
@[simp] theorem writePixel_imem (a : Int) : (s.writePixel a).imem = s.imem := by
  unfold State.writePixel; split <;> rfl
@[simp] theorem writePixel_progLen (a : Int) : (s.writePixel a).progLen = s.progLen := by
  unfold State.writePixel; split <;> rfl
@[simp] theorem writePixel_freeDraws (a : Int) : (s.writePixel a).freeDraws = s.freeDraws := by
  unfold State.writePixel; split <;> rfl

/-- The index after the writer acted (45 R133). -/
theorem writePixel_wrIdx (a : Int) :
    (s.writePixel a).wrIdx = if s.wrIdx.toNat < Config.NCELL then s.wrIdx + 1 else s.wrIdx := by
  unfold State.writePixel; split <;> rfl

/-! ### Cells read through the updates -/

@[simp] theorem raise_cell (f : FaultCause) (i : Nat) : (s.raise f).cell i = s.cell i := rfl
@[simp] theorem countDown_cell (j : Instr) (c : BitVec 1) (i : Nat) : (s.countDown j c).cell i = s.cell i := rfl
@[simp] theorem retire_cell (i : Nat) : s.retire.cell i = s.cell i := rfl
@[simp] theorem tick_cell (i : Nat) : s.tick.cell i = s.cell i := rfl
@[simp] theorem applyReset_cell (i : Nat) : s.applyReset.cell i = false := by
  simp [State.cell]

end Sys2Proof.Machine
end

