-- ==== Sys2Proof/Laws/Memory.lean ====
section
/-! SUPPORT. Program memory: read after write, and the canonical form kept by every operation. -/

namespace Sys2Proof.Machine

/-- A memory whose addresses are all above `a` lists nothing at `a`. -/
theorem readByte_of_lt {m : List Host.Cell} {a : Nat} (h : ∀ c ∈ m, a < c.1) :
    Memory.readByte m a = Config.unlistedByte := by
  induction m with
  | nil => rfl
  | cons c m ih =>
    have hc : c.1 ≠ a := Nat.ne_of_gt (h c (by simp))
    simp only [Memory.readByte, if_neg hc]
    exact ih fun d hd => h d (by simp [hd])

/-- Reading through a cell put in front of a memory that lists nothing at its address. -/
theorem readByte_consCell {m : List Host.Cell} {a : Nat} {b : Byte} (h : ∀ c ∈ m, a < c.1) (x : Nat) :
    Memory.readByte (Memory.consCell a b m) x = if x = a then b else Memory.readByte m x := by
  unfold Memory.consCell
  by_cases hb : b = Config.unlistedByte <;> by_cases hx : x = a
  · simp [hb, hx, readByte_of_lt h]
  · simp [hb, hx]
  · simp [hb, hx, Memory.readByte]
  · simp [hb, hx, Memory.readByte, Ne.symm hx]

/-- Read after write: the byte written at its address, what was there at every other. -/
theorem readByte_writeByte {m : List Host.Cell} (hm : Memory.wf m) (a : Nat) (b : Byte) (x : Nat) :
    Memory.readByte (Memory.writeByte m a b) x = if x = a then b else Memory.readByte m x := by
  induction m with
  | nil => exact readByte_consCell (by simp) x
  | cons c m ih =>
    have hgt : ∀ d ∈ m, c.1 < d.1 := (List.pairwise_cons.mp hm.1).1
    have hwf : Memory.wf m := ⟨(List.pairwise_cons.mp hm.1).2, fun d hd => hm.2 d (by simp [hd])⟩
    have hcons : ∀ b, Memory.readByte (c :: b) x = if c.1 = x then c.2 else Memory.readByte b x := fun _ => rfl
    rcases lt_trichotomy a c.1 with h1 | h2 | h3
    · rw [Memory.writeByte, if_pos h1]
      apply readByte_consCell
      intro d hd
      rcases List.mem_cons.mp hd with rfl | hd
      · exact h1
      · exact lt_trans h1 (hgt d hd)
    · subst h2
      rw [Memory.writeByte, if_neg (lt_irrefl _), if_pos rfl, readByte_consCell hgt, hcons]
      by_cases hx : x = c.1
      · rw [if_pos hx, if_pos hx]
      · rw [if_neg hx, if_neg hx, if_neg (Ne.symm hx)]
    · rw [Memory.writeByte, if_neg (by omega), if_neg (by omega), hcons, hcons, ih hwf]
      by_cases hc : c.1 = x
      · rw [if_pos hc, if_pos hc, if_neg (by omega)]
      · rw [if_neg hc, if_neg hc]

theorem mem_consCell {m : List Host.Cell} {a : Nat} {b : Byte} {c : Host.Cell}
    (h : c ∈ Memory.consCell a b m) : c = (a, b) ∧ b ≠ Config.unlistedByte ∨ c ∈ m := by
  unfold Memory.consCell at h
  split_ifs at h with hb
  · exact .inr h
  · rcases List.mem_cons.mp h with rfl | h
    · exact .inl ⟨rfl, hb⟩
    · exact .inr h

/-- A write lists its own address and the addresses listed before, no other. -/
theorem mem_writeByte {m : List Host.Cell} {a : Nat} {b : Byte} {c : Host.Cell}
    (h : c ∈ Memory.writeByte m a b) : c = (a, b) ∧ b ≠ Config.unlistedByte ∨ c ∈ m := by
  induction m with
  | nil => exact mem_consCell h
  | cons d m ih =>
    unfold Memory.writeByte at h
    split_ifs at h with h1 h2
    · exact mem_consCell h
    · rcases mem_consCell h with h | h
      · exact .inl h
      · exact .inr (by simp [h])
    · rcases List.mem_cons.mp h with rfl | h
      · exact .inr (by simp)
      · rcases ih h with h | h
        · exact .inl h
        · exact .inr (by simp [h])

theorem wf_consCell {m : List Host.Cell} (hm : Memory.wf m) {a : Nat} {b : Byte} (h : ∀ c ∈ m, a < c.1) :
    Memory.wf (Memory.consCell a b m) := by
  unfold Memory.consCell
  split_ifs with hb
  · exact hm
  · refine ⟨List.pairwise_cons.mpr ⟨h, hm.1⟩, ?_⟩
    intro c hc
    rcases List.mem_cons.mp hc with rfl | hc
    · exact hb
    · exact hm.2 c hc

/-- Every write of a byte keeps the canonical form. -/
theorem wf_writeByte {m : List Host.Cell} (hm : Memory.wf m) (a : Nat) (b : Byte) :
    Memory.wf (Memory.writeByte m a b) := by
  induction m with
  | nil => exact wf_consCell hm (by simp)
  | cons c m ih =>
    have hgt : ∀ d ∈ m, c.1 < d.1 := (List.pairwise_cons.mp hm.1).1
    have hwf : Memory.wf m := ⟨(List.pairwise_cons.mp hm.1).2, fun d hd => hm.2 d (by simp [hd])⟩
    unfold Memory.writeByte
    split_ifs with h1 h2
    · apply wf_consCell hm
      intro d hd
      rcases List.mem_cons.mp hd with rfl | hd
      · exact h1
      · exact lt_trans h1 (hgt d hd)
    · exact wf_consCell hwf (h2 ▸ hgt)
    · have hw := ih hwf
      refine ⟨List.pairwise_cons.mpr ⟨?_, hw.1⟩, ?_⟩
      · intro d hd
        rcases mem_writeByte hd with ⟨rfl, -⟩ | hd
        · show c.1 < a
          omega
        · exact hgt d hd
      · intro d hd
        rcases List.mem_cons.mp hd with rfl | hd
        · exact hm.2 d (by simp)
        · exact hw.2 d hd

/-- Every write of a word keeps the canonical form. -/
theorem wf_writeWord {m : List Host.Cell} (hm : Memory.wf m) (k : Nat) (w : Word) :
    Memory.wf (Memory.writeWord m k w) :=
  wf_writeByte (wf_writeByte (wf_writeByte (wf_writeByte hm _ _) _ _) _ _) _ _

/-- The image of a program is in canonical form. -/
theorem wf_ofWords (ws : List Word) {m : List Host.Cell} (hm : Memory.wf m) (k : Nat) :
    Memory.wf (Memory.ofWords m k ws) := by
  induction ws generalizing m k with
  | nil => exact hm
  | cons w ws ih => exact ih (wf_writeWord hm k w) (k + 1)

theorem wf_nil : Memory.wf [] := ⟨List.Pairwise.nil, by simp⟩

/-- Memory at `State.reset` has the canonical form. -/
theorem reset_imem_wf : Memory.wf State.reset.imem := wf_nil

/-- The four bytes of a word make the word again (R53). -/
theorem wordOfBytes_byteOfWord (w : Word) :
    wordOfBytes (byteOfWord w 0) (byteOfWord w 1) (byteOfWord w 2) (byteOfWord w 3) = w := by
  apply BitVec.eq_of_getLsbD_eq
  intro i hi
  simp only [wordOfBytes, byteOfWord, BitVec.getLsbD_append, BitVec.getLsbD_extractLsb']
  by_cases h1 : i < 8
  · simp [h1]
  · by_cases h2 : i - 8 < 8
    · simp [h1, h2, show 8 + (i - 8) = i by omega]
    · by_cases h3 : i - 8 - 8 < 8
      · simp [h1, h2, h3, show 16 + (i - 8 - 8) = i by omega]
      · simp [h1, h2, h3, show 24 + (i - 8 - 8 - 8) = i by omega, show i - 8 - 8 - 8 < 8 by omega]

/-- Reading words after the write of a word. -/
theorem readWord_writeWord {m : List Host.Cell} (hm : Memory.wf m) (k : Nat) (w : Word) (j : Nat) :
    Memory.readWord (Memory.writeWord m k w) j = if j = k then w else Memory.readWord m j := by
  have h0 := wf_writeByte hm (4 * k) (byteOfWord w 0)
  have h1 := wf_writeByte h0 (4 * k + 1) (byteOfWord w 1)
  have h2 := wf_writeByte h1 (4 * k + 2) (byteOfWord w 2)
  have hr : ∀ x, Memory.readByte (Memory.writeWord m k w) x =
      if x = 4 * k + 3 then byteOfWord w 3 else if x = 4 * k + 2 then byteOfWord w 2
      else if x = 4 * k + 1 then byteOfWord w 1 else if x = 4 * k then byteOfWord w 0
      else Memory.readByte m x := by
    intro x
    rw [Memory.writeWord, readByte_writeByte h2, readByte_writeByte h1, readByte_writeByte h0,
      readByte_writeByte hm]
  unfold Memory.readWord
  simp only [hr]
  by_cases h : j = k
  · subst h
    simp [wordOfBytes_byteOfWord]
  · simp [show ∀ a b, a < 4 → b < 4 → 4 * j + a ≠ 4 * k + b by omega, h,
      show 4 * j ≠ 4 * k + 1 by omega, show 4 * j ≠ 4 * k + 2 by omega, show 4 * j ≠ 4 * k + 3 by omega,
      show 4 * j + 1 ≠ 4 * k by omega, show 4 * j + 2 ≠ 4 * k by omega, show 4 * j + 3 ≠ 4 * k by omega,
      show 4 * j ≠ 4 * k by omega]

/-- Reading the image of a program: the program's words where it stands, what was there elsewhere. -/
theorem readWord_ofWords (ws : List Word) {m : List Host.Cell} (hm : Memory.wf m) (k j : Nat) :
    Memory.readWord (Memory.ofWords m k ws) j =
      if k ≤ j then (ws[j - k]?).getD (Memory.readWord m j) else Memory.readWord m j := by
  induction ws generalizing m k with
  | nil => simp [Memory.ofWords]
  | cons w ws ih =>
    rw [Memory.ofWords, ih (wf_writeWord hm k w), readWord_writeWord hm]
    rcases lt_trichotomy j k with h | rfl | h
    · simp [show ¬k + 1 ≤ j by omega, show ¬k ≤ j by omega, show j ≠ k by omega]
    · simp
    · obtain ⟨d, rfl⟩ : ∃ d, j = k + 1 + d := ⟨j - (k + 1), by omega⟩
      simp [show k ≤ k + 1 + d by omega, show k + 1 + d ≠ k by omega, show k + 1 + d - k = d + 1 by omega]

end Sys2Proof.Machine
end

