-- ==== Sys2Proof/Laws/Word.lean ====
section
/-! SUPPORT. Integer ranges and the narrowing of a stored integer (00_scope.md R11). -/

namespace Sys2Proof.Machine

/-- A wider register holds every integer a narrower one holds. -/
theorem IntFits_mono {m n : Nat} (hmn : m ≤ n) {v : Int} (h : IntFits m v) : IntFits n v := by
  have hp : (2 : Int) ^ (m - 1) ≤ 2 ^ (n - 1) := pow_le_pow_right₀ (by norm_num) (by omega)
  exact ⟨by linarith [h.1], by linarith [h.2]⟩

/-- A bit vector's signed value fits its width. -/
theorem IntFits_toInt {n : Nat} (hn : 1 ≤ n) (b : BitVec n) : IntFits n b.toInt := by
  obtain ⟨k, rfl⟩ : ∃ k, n = k + 1 := ⟨n - 1, by omega⟩
  have h1 := BitVec.le_toInt b
  have h2 := BitVec.toInt_lt (x := b)
  simp only [Nat.add_sub_cancel] at h1 h2 ⊢
  exact ⟨h1, by simpa using Int.le_sub_one_of_lt h2⟩

/-- Narrowing is the signed value of the stored bits. -/
theorem narrowInt_eq_toInt (n : Nat) (v : Int) : narrowInt n v = (BitVec.ofInt n v).toInt := by
  simp [narrowInt, BitVec.toInt_ofInt]

/-- What a register holds after a store fits it. -/
theorem IntFits_narrowInt {n : Nat} (hn : 1 ≤ n) (v : Int) : IntFits n (narrowInt n v) := by
  rw [narrowInt_eq_toInt]; exact IntFits_toInt hn _

/-- An integer that fits is stored as itself. -/
theorem narrowInt_of_fits {n : Nat} (hn : 1 ≤ n) {v : Int} (h : IntFits n v) : narrowInt n v = v := by
  obtain ⟨k, rfl⟩ : ∃ k, n = k + 1 := ⟨n - 1, by omega⟩
  obtain ⟨h1, h2⟩ := h
  simp only [Nat.add_sub_cancel] at h1 h2
  have hp : ((2 ^ (k + 1) : Nat) : Int) = 2 * 2 ^ k := by push_cast; ring
  apply Int.bmod_eq_of_le <;> rw [hp] <;> omega

/-- Every encodable delta fits the accumulator (R73, R8). -/
theorem IntFits_of_wellFormed (p : Params) {delta : Int} (h : wellFormed (.addx delta) = true) :
    IntFits p.accW delta :=
  IntFits_mono p.accW_ge (by simpa only [wellFormed, decide_eq_true_eq] using h)

end Sys2Proof.Machine
end

