-- ==== Sys2Proof/Laws/Ops.lean ====
section
/-! SUPPORT. What each shared operation can do, said once. -/

namespace Sys2Proof.Machine

variable (s : State)

/-! ### The pixel writer -/

theorem writePixel_cell_written (a : Int) (h : s.wrIdx.toNat < Config.NCELL) :
    (s.writePixel a).cell s.wrIdx.toNat = lit a (s.wrIdx.toNat % Config.W) := by
  simp [State.writePixel, State.cell, h]

theorem writePixel_cell_other (a : Int) {i : Nat} (h : i ≠ s.wrIdx.toNat) :
    (s.writePixel a).cell i = s.cell i := by
  unfold State.writePixel
  split
  · simp [State.cell, Ne.symm h]
  · rfl

theorem writePixel_full (a : Int) (h : Config.NCELL ≤ s.wrIdx.toNat) : s.writePixel a = s := by
  rw [State.writePixel, dif_neg (by omega)]

/-- The index does not wrap when the writer moves on. -/
theorem writePixel_wrIdx_toNat (a : Int) (h : s.wrIdx.toNat < Config.NCELL) :
    (s.writePixel a).wrIdx.toNat = s.wrIdx.toNat + 1 := by
  rw [writePixel_wrIdx, if_pos h, BitVec.toNat_add]
  simp only [Config.NCELL] at h
  simp
  omega

/-- The end of a completed step makes the writer act once, whatever the engine did to the other fields. -/
theorem writerActs_finish {s t : State} (hd : t.disp = s.disp) (hw : t.wrIdx = s.wrIdx) :
    WriterActs s (t.writePixel s.acc).tick := by
  have hc : ∀ i, t.cell i = s.cell i := fun i => by simp [State.cell, hd]
  constructor
  · intro h
    rw [← hw] at h ⊢
    exact writePixel_wrIdx_toNat t s.acc h
  · intro h
    rw [← hw] at h ⊢
    exact writePixel_cell_written t s.acc h
  · intro i hi
    rw [← hw] at hi
    rw [tick_cell, writePixel_cell_other t s.acc hi, hc]
  · intro h
    rw [← hw] at h
    rw [writePixel_full t s.acc h]
    exact ⟨hw, hd⟩

/-! ### One cycle with an instruction in hand -/

theorem cycleWith_countDown {i : Instr} (e : State → Attempt) (h : s.counter i ≠ 0) :
    s.cycleWith i e = ((s.countDown i (s.counter i)).writePixel s.acc).tick := by
  simp only [State.cycleWith, State.engine, if_neg h, Attempt.finish]

theorem cycleWith_commit {i : Instr} {e : State → Attempt} {u : State} (h : s.counter i = 0)
    (he : e s = .done u) : s.cycleWith i e = (u.retire.writePixel s.acc).tick := by
  simp only [State.cycleWith, State.engine, if_pos h, he, Attempt.retire, Attempt.finish]

theorem cycleWith_raised {i : Instr} {e : State → Attempt} {f : FaultCause} (h : s.counter i = 0)
    (he : e s = .raised f) : s.cycleWith i e = s.raise f := by
  simp only [State.cycleWith, State.engine, if_pos h, he, Attempt.retire, Attempt.finish]

/-- A one-bit counter that is not 0 counts down to 0. -/
theorem cnt_sub_one {c : BitVec 1} (h : c ≠ 0) : c - 1 = 0 := by
  revert h; revert c; decide

/-! ### The two meanings -/

/-- ADDX overflows exactly when the integer sum leaves ACC_W bits (R121). -/
theorem addxOverflows_iff (delta : Int) :
    addxOverflows s delta = true ↔ ¬IntFits s.params.accW (s.acc + delta) := by
  rw [addxOverflows, Bool.not_eq_true', decide_eq_false_iff_not]; exact Iff.rfl

theorem effectAddx_fits {delta : Int} (h : IntFits s.params.accW (s.acc + delta)) :
    effectAddx delta s = .done { s with acc := s.acc + delta } := by
  rw [effectAddx, if_neg (fun ho => (addxOverflows_iff s delta).mp ho h)]; rfl

theorem effectAddx_overflows {delta : Int} (h : ¬IntFits s.params.accW (s.acc + delta)) :
    effectAddx delta s = .raised .accOverflow := by
  rw [effectAddx, if_pos ((addxOverflows_iff s delta).mpr h)]

/-- What `exec` can answer for NOOP: a count-down of a held counter, or its commit. -/
theorem exec_noop_cases :
    (s.counter .noop ≠ 0 ∧
      exec .noop s = .next ((s.countDown .noop (s.counter .noop)).writePixel s.acc).tick) ∨
    (s.counter .noop = 0 ∧ exec .noop s = .next (s.retire.writePixel s.acc).tick) := by
  by_cases h : s.counter .noop = 0
  · exact .inr ⟨h, congrArg _ (cycleWith_commit s h rfl)⟩
  · exact .inl ⟨h, congrArg _ (cycleWith_countDown s _ h)⟩

/-- What `exec` can answer for ADDX: a count-down, its commit, or ACC_OVERFLOW. -/
theorem exec_addx_cases (delta : Int) :
    (s.counter (.addx delta) ≠ 0 ∧ exec (.addx delta) s =
      .next ((s.countDown (.addx delta) (s.counter (.addx delta))).writePixel s.acc).tick) ∨
    (s.counter (.addx delta) = 0 ∧ IntFits s.params.accW (s.acc + delta) ∧ exec (.addx delta) s =
      .next (({ s with acc := s.acc + delta } : State).retire.writePixel s.acc).tick) ∨
    (s.counter (.addx delta) = 0 ∧ ¬IntFits s.params.accW (s.acc + delta) ∧
      exec (.addx delta) s = .next (s.raise .accOverflow)) := by
  by_cases h : s.counter (.addx delta) = 0
  · by_cases hf : IntFits s.params.accW (s.acc + delta)
    · exact .inr (.inl ⟨h, hf, congrArg _ (cycleWith_commit s h (effectAddx_fits s hf))⟩)
    · exact .inr (.inr ⟨h, hf, congrArg _ (cycleWith_raised s h (effectAddx_overflows s hf))⟩)
  · exact .inl ⟨h, congrArg _ (cycleWith_countDown s _ h)⟩

end Sys2Proof.Machine
end

