-- ==== Sys2Proof/Laws/PerInstr.lean ====
section
/-! SUPPORT. Lemmas made one per instruction: where each instruction's fields stand in its word. -/

/-- The encoded word carries the instruction's opcode in `w[31:24]` and its immediate in `w[23:0]` (30 R70, R78). -/
def Sys2Proof.Laws.OpcodeField.Statement (i : Sys2Proof.Instr) : Prop :=
  Sys2Proof.opcOf (Sys2Proof.encode i) = Sys2Proof.opcodeOf i ∧
    Sys2Proof.imm24Of (Sys2Proof.encode i) = Sys2Proof.immOf i

/-- The two fields of a word put together from them. -/
theorem Sys2Proof.Laws.fields_append (o : BitVec 8) (v : BitVec 24) :
    Sys2Proof.opcOf (o ++ v) = o ∧ Sys2Proof.imm24Of (o ++ v) = v := by
  constructor <;> apply BitVec.eq_of_getLsbD_eq <;> intro i hi
  · rw [Sys2Proof.opcOf, BitVec.getLsbD_extractLsb']
    exact (congrArg _ (BitVec.getLsbD_append (x := o) (y := v))).trans (by simp [hi])
  · rw [Sys2Proof.imm24Of, BitVec.getLsbD_extractLsb']
    exact (congrArg _ (BitVec.getLsbD_append (x := o) (y := v))).trans (by simp [hi])

theorem Sys2Proof.Laws.OpcodeField.noop : Sys2Proof.Laws.OpcodeField.Statement .noop :=
  Sys2Proof.Laws.fields_append 0 0

theorem Sys2Proof.Laws.OpcodeField.addx (delta : Int) :
    Sys2Proof.Laws.OpcodeField.Statement (.addx delta) :=
  Sys2Proof.Laws.fields_append 1 _
end

