-- ==== Sys2Proof/Laws/Step.lean ====
section
/-! SUPPORT. What a step can do, said once: `step` always answers a next state, and it is one of the cases of
`after_cases`. -/

namespace Sys2Proof.Machine

variable (s : State)

/-- Every instruction answers a next state. -/
theorem exec_next (i : Instr) : ∃ t, exec i s = .next t := by
  cases i with
  | noop => exact ⟨_, rfl⟩
  | addx delta => exact ⟨_, rfl⟩

theorem step_of_not_runnable (h : s.runnable = false) : step s = .next (s.raise .contractViolation) := by
  simp [step, h]

theorem step_of_instr {i : Instr} (h : s.runnable = true) (hi : s.inHand = .instr i) : step s = exec i s := by
  simp [step, h, hi]

theorem step_of_illegal {why : IllegalWord} (h : s.runnable = true) (hi : s.inHand = .illegal why) :
    step s = .next (s.raise .illegalInstruction) := by
  simp [step, h, hi]

/-- The step is total: it answers the next state `s.after`. -/
theorem step_eq_after : step s = .next s.after := by
  have key : ∃ t, step s = .next t := by
    cases h : s.runnable with
    | false => exact ⟨_, step_of_not_runnable s h⟩
    | true =>
      cases hi : s.inHand with
      | instr i => rw [step_of_instr s h hi]; exact exec_next s i
      | illegal why => exact ⟨_, step_of_illegal s h hi⟩
  obtain ⟨t, ht⟩ := key
  rw [State.after, ht]; rfl

theorem next_eq_after {t : State} (h : step s = .next t) : t = s.after := by
  rw [step_eq_after] at h
  injection h with h
  exact h.symm

/-- An edge that requests a step and does not reset leads to `s.after`. -/
theorem clockEdge_step : clockEdge false true s = .next s.after := step_eq_after s

theorem after_of_exec {i : Instr} {t : State} (h : s.runnable = true) (hi : s.inHand = .instr i)
    (ht : exec i s = .next t) : s.after = t :=
  (next_eq_after s ((step_of_instr s h hi).trans ht)).symm

/-- What a step can do: a contract violation, an illegal fetch, a count-down, a NOOP or ADDX commit, an overflow. -/
theorem after_cases :
    (s.runnable = false ∧ s.after = s.raise .contractViolation) ∨
    (s.runnable = true ∧ s.latch.valid = false ∧ (∃ why, s.fetch = .illegal why) ∧
      s.after = s.raise .illegalInstruction) ∨
    (s.runnable = true ∧ ∃ i, s.inHand = .instr i ∧ s.counter i ≠ 0 ∧
      s.after = ((s.countDown i (s.counter i)).writePixel s.acc).tick) ∨
    (s.runnable = true ∧ s.inHand = .instr .noop ∧ s.counter .noop = 0 ∧
      s.after = (s.retire.writePixel s.acc).tick) ∨
    (s.runnable = true ∧ ∃ delta, s.inHand = .instr (.addx delta) ∧ s.counter (.addx delta) = 0 ∧
      IntFits s.params.accW (s.acc + delta) ∧
      s.after = (({ s with acc := s.acc + delta } : State).retire.writePixel s.acc).tick) ∨
    (s.runnable = true ∧ ∃ delta, s.inHand = .instr (.addx delta) ∧ s.counter (.addx delta) = 0 ∧
      ¬IntFits s.params.accW (s.acc + delta) ∧ s.after = s.raise .accOverflow) := by
  cases h : s.runnable with
  | false => exact .inl ⟨rfl, (next_eq_after s (step_of_not_runnable s h)).symm⟩
  | true =>
    refine .inr ?_
    cases hi : s.inHand with
    | illegal why =>
      have hv : s.latch.valid = false := by
        cases hv : s.latch.valid with
        | false => rfl
        | true => simp [State.inHand, hv] at hi
      have hf : s.fetch = .illegal why := by simpa [State.inHand, hv] using hi
      exact .inl ⟨rfl, hv, ⟨why, hf⟩, (next_eq_after s (step_of_illegal s h hi)).symm⟩
    | instr i =>
      refine .inr ?_
      cases i with
      | noop =>
        rcases exec_noop_cases s with ⟨hc, he⟩ | ⟨hc, he⟩
        · exact .inl ⟨rfl, _, rfl, hc, after_of_exec s h hi he⟩
        · exact .inr (.inl ⟨rfl, rfl, hc, after_of_exec s h hi he⟩)
      | addx delta =>
        rcases exec_addx_cases s delta with ⟨hc, he⟩ | ⟨hc, hf, he⟩ | ⟨hc, hf, he⟩
        · exact .inl ⟨rfl, _, rfl, hc, after_of_exec s h hi he⟩
        · exact .inr (.inr (.inl ⟨rfl, _, rfl, hc, hf, after_of_exec s h hi he⟩))
        · exact .inr (.inr (.inr ⟨rfl, _, rfl, hc, hf, after_of_exec s h hi he⟩))

/-- `k + 1` steps are `k` steps and one more. -/
theorem afterN_succ (k : Nat) : s.afterN (k + 1) = (s.afterN k).after := by
  induction k generalizing s with
  | zero => rfl
  | succ k ih => exact ih s.after

end Sys2Proof.Machine
end

