-- ==== Sys2Proof/Laws/Run.lean ====
section
/-! SUPPORT. What every step leaves alone, what a runnable state says, and runs of steps. -/

namespace Sys2Proof.Machine

variable (s : State)

/-! ### A runnable state -/

variable {s} in
theorem runnable_iff : s.runnable = true ↔ s.halted = false ∧ s.fault = 0 := by
  simp [State.runnable, State.faulted]

variable {s} in
theorem fault_of_runnable (h : s.runnable = true) : s.fault = 0 := (runnable_iff.mp h).2

variable {s} in
/-- A runnable block that fetches does so below PROG_LEN (R103). -/
theorem pc_lt_of_runnable (h : s.runnable = true) (hv : s.latch.valid = false) : s.pc < s.progLen := by
  have := (runnable_iff.mp h).1
  simpa [State.halted, hv] using this

variable {s} in
/-- Where a runnable block fetches, `imem_rdata` is program memory. -/
theorem fetch_of_runnable (h : s.runnable = true) (hv : s.latch.valid = false) :
    s.fetch = decode (Memory.readWord s.imem s.pc) := by
  rw [State.fetch, State.programWord, if_pos (pc_lt_of_runnable h hv)]

theorem inHand_of_empty (hv : s.latch.valid = false) : s.inHand = s.fetch := by
  simp [State.inHand, hv]

theorem inHand_of_valid (hv : s.latch.valid = true) : s.inHand = .instr s.latch.instr := by
  simp [State.inHand, hv]

/-- Fetch depends on program memory, `prog_len` and `pc` only. -/
theorem fetch_congr {s t : State} (hm : t.imem = s.imem) (hl : t.progLen = s.progLen) (hp : t.pc = s.pc) :
    t.fetch = s.fetch := by
  simp only [State.fetch, State.programWord, hm, hl, hp]

/-- An ADDX whose counter is 0 is held in the latch: its latency is 1 (R75). -/
theorem valid_of_addx_commit {delta : Int} (h : s.counter (.addx delta) = 0) : s.latch.valid = true := by
  cases hv : s.latch.valid with
  | true => rfl
  | false => simp [State.counter, hv, latency, opOf] at h

/-- The delta of any ADDX the decoder gives is encodable. -/
theorem fits_of_decode {w : Word} {delta : Int} (h : decode w = .instr (.addx delta)) : IntFits 24 delta := by
  unfold decode at h
  split_ifs at h
  · simp at h
  · simp only [Decoded.instr.injEq, Instr.addx.injEq] at h
    exact h ▸ IntFits_toInt (n := 24) (by decide) (imm24Of w)

/-! ### What no step changes -/

/-- A step keeps whatever every raise, count-down, commit, pixel write and cycle count keep. -/
theorem after_keeps {α : Type} (f : State → α) (hr : ∀ u c, f (State.raise u c) = f u)
    (hd : ∀ u i c, f (State.countDown u i c) = f u) (hc : ∀ u, f (State.retire u) = f u)
    (ha : ∀ (u : State) (a : Int), f { u with acc := a } = f u)
    (hw : ∀ u a, f (State.writePixel u a) = f u) (ht : ∀ u, f (State.tick u) = f u) : f s.after = f s := by
  rcases after_cases s with ⟨-, h⟩ | ⟨-, -, -, h⟩ | ⟨-, i, -, -, h⟩ | ⟨-, -, -, h⟩ | ⟨-, d, -, -, -, h⟩ |
    ⟨-, d, -, -, -, h⟩ <;> simp only [h, hr, hd, hc, ha, hw, ht]

@[simp] theorem after_params : s.after.params = s.params :=
  after_keeps s State.params (fun _ _ => rfl) (fun _ _ _ => rfl) (fun _ => rfl) (fun _ _ => rfl)
    writePixel_params (fun _ => rfl)

@[simp] theorem after_imem : s.after.imem = s.imem :=
  after_keeps s State.imem (fun _ _ => rfl) (fun _ _ _ => rfl) (fun _ => rfl) (fun _ _ => rfl)
    writePixel_imem (fun _ => rfl)

@[simp] theorem after_progLen : s.after.progLen = s.progLen :=
  after_keeps s State.progLen (fun _ _ => rfl) (fun _ _ _ => rfl) (fun _ => rfl) (fun _ _ => rfl)
    writePixel_progLen (fun _ => rfl)

theorem after_of_not_runnable (h : s.runnable = false) : s.after = s.raise .contractViolation :=
  (next_eq_after s (step_of_not_runnable s h)).symm

/-! ### Raised faults are never 0 again without reset -/

theorem raise_fault_ne_zero (f : FaultCause) : (s.raise f).fault ≠ 0 := by
  have key : ∀ (b : BitVec 3), b ||| f.mask ≠ 0 := by cases f <;> decide
  exact key s.fault

/-- A step after which `fault` is 0 was allowed: it started in a runnable state. -/
theorem runnable_of_after_fault (h : s.after.fault = 0) : s.runnable = true := by
  cases hr : s.runnable with
  | true => rfl
  | false => exact absurd (after_of_not_runnable s hr ▸ h) (raise_fault_ne_zero s _)

/-- With no fault recorded, nothing is to be said of recorded faults. -/
theorem faultInv_of_fault_eq_zero (h : s.fault = 0) : s.FaultInv := by
  constructor <;> intro hf <;> simp [State.hasFault, h] at hf

/-! ### Runs of steps -/

@[simp] theorem afterN_zero : s.afterN 0 = s := rfl

@[simp] theorem afterN_params (k : Nat) : (s.afterN k).params = s.params := by
  induction k with
  | zero => rfl
  | succ k ih => rw [afterN_succ, after_params, ih]

@[simp] theorem afterN_imem (k : Nat) : (s.afterN k).imem = s.imem := by
  induction k with
  | zero => rfl
  | succ k ih => rw [afterN_succ, after_imem, ih]

@[simp] theorem afterN_progLen (k : Nat) : (s.afterN k).progLen = s.progLen := by
  induction k with
  | zero => rfl
  | succ k ih => rw [afterN_succ, after_progLen, ih]

theorem afterN_add (j k : Nat) : s.afterN (j + k) = (s.afterN j).afterN k := by
  induction k with
  | zero => rfl
  | succ k ih => rw [← Nat.add_assoc, afterN_succ, afterN_succ, ih]

/-- If `fault` is 0 after `k` steps, each of them was allowed. -/
theorem runnable_of_afterN_fault {k : Nat} (h : (s.afterN k).fault = 0) {j : Nat} (hj : j < k) :
    (s.afterN j).runnable = true := by
  induction k with
  | zero => omega
  | succ k ih =>
    rw [afterN_succ] at h
    have hr := runnable_of_after_fault _ h
    rcases Nat.lt_succ_iff_lt_or_eq.mp hj with hlt | rfl
    · exact ih (fault_of_runnable hr) hlt
    · exact hr

/-! ### The driver's loop -/

/-- What the driver's loop can do: some number of steps within its bound, each made in a runnable state in which `go`
holds; it stops at the bound, in a state that is not runnable, or in one in which `go` fails. -/
theorem drive_ends (go : State → Bool) (n : Nat) :
    ∃ k, k ≤ n ∧ s.drive go n = s.afterN k ∧
      (∀ j, j < k → (s.afterN j).runnable = true ∧ go (s.afterN j) = true) ∧
      (k = n ∨ (s.afterN k).runnable = false ∨ go (s.afterN k) = false) := by
  induction n generalizing s with
  | zero => exact ⟨0, le_rfl, rfl, by omega, .inl rfl⟩
  | succ n ih =>
    cases hgo : s.runnable && go s with
    | false => exact ⟨0, by omega, by simp [State.drive, hgo], by omega, .inr (Bool.and_eq_false_iff.mp hgo)⟩
    | true =>
      obtain ⟨k, hk, he, hj, hend⟩ := ih s.after
      refine ⟨k + 1, by omega, by simp only [State.drive, hgo, if_true, he]; rfl, ?_, ?_⟩
      · intro j hj'
        cases j with
        | zero => exact Bool.and_eq_true_iff.mp hgo
        | succ j => exact hj j (by omega)
      · exact hend.imp_left fun h => by omega

end Sys2Proof.Machine
end

