-- ==== Sys2Proof/Tests/Slice0.lean ====
section
/-! SUPPORT. The author's own tests: expected values are the spec's (95_test_vectors.md, 30 R81, 45 R138). After them, a
named witness for every statement that has hypotheses. -/

namespace Sys2Proof.Machine.Tests

/-- Small parameters at the least ACC_W that R8 allows (T-ADDX-4 to T-ADDX-7 use ACC_W = 24). -/
def p24 : Params := { accW := 24, pcW := 4, cycleW := 8 }

/-- An Idle engine at pc 0 with the given program and accumulator. -/
def idle (ws : List Word) (acc : Int) : State :=
  { State.resetFor p24 (Memory.ofWords [] 0 ws) ws.length 0 with acc := acc }

/-- The same engine one cycle on, with an ADDX of the given delta in the latch. -/
def held (ws : List Word) (acc delta : Int) : State :=
  { idle ws acc with latch := { valid := true, op := .addx, delta := delta, cnt := 0 }, cycle := 1, wrIdx := 1 }

/-- What a test looks at in the state an outcome leaves: pc, acc, latch.valid, cycle, fault, runnable. -/
def seen (o : Host.Outcome State Fault Refusal) : Option (Nat × Int × Bool × Nat × BitVec 3 × Bool) :=
  match o with
  | .next t => some (t.pc, t.acc, t.latch.valid, t.cycle, t.fault, t.runnable)
  | .fault _ => none
  | .refused _ => none

/-! ### Well-formedness: an ill-formed term for the one check -/

theorem test_wellFormed_noop : wellFormed .noop = true := by decide
theorem test_wellFormed_bounds : wellFormed (.addx 8388607) = true ∧ wellFormed (.addx (-8388608)) = true := by
  decide
theorem test_illFormed_addx_high : wellFormed (.addx 8388608) = false := by decide
theorem test_illFormed_addx_low : wellFormed (.addx (-8388609)) = false := by decide

/-! ### Decoding: words written out bit by bit from R70, R72 (opc, then imm24) -/

theorem test_decode_noop : decode 0b00000000000000000000000000000000 = .instr .noop := by decide
theorem test_decode_addx_3 : decode 0b00000001000000000000000000000011 = .instr (.addx 3) := by decide
theorem test_decode_addx_neg5 : decode 0b00000001111111111111111111111011 = .instr (.addx (-5)) := by
  decide
theorem test_decode_addx_min : decode 0b00000001100000000000000000000000 = .instr (.addx (-8388608)) := by
  decide
theorem test_decode_illegal :
    decode 0x00000001 = .illegal .noopImmediate ∧ decode 0x02000000 = .illegal .unknownOpcode ∧
      decode 0xFF123456 = .illegal .unknownOpcode := by decide
theorem test_decodeBytes_truncated : (decodeBytes [3, 0, 0]).1 = .illegal .truncated := by decide
/-- The table's bit 0 is the lowest bit of the word; the opcode is the image's last byte (R53). -/
theorem test_decodeTableWord :
    decodeTableWord 32 0 = some .noop ∧ decodeTableWord 32 0x01FFFFFB = some (.addx (-5)) ∧
      decodeTableWord 32 0x02000000 = none ∧ bytesOfWord 0x01FFFFFB = [0xFB, 0xFF, 0xFF, 0x01] := by
  decide

/-! ### One step each (T-NOOP-1, T-NOOP-2, T-ADDX-2, T-ADDX-4, T-ADDX-5, T-FLT-2, T-FLT-4) -/

theorem test_noop_last : seen (step (idle [0] 1)) = some (1, 1, false, 1, 0, false) := by decide
theorem test_noop_of_two : seen (step (idle [0, 0] 1)) = some (1, 1, false, 1, 0, true) := by decide
theorem test_addx_first : seen (step (idle [0x01FFFFFB] 1)) = some (0, 1, true, 1, 0, true) := by decide
theorem test_addx_second_fits :
    seen (step (held [0x01000001] 8388606 1)) = some (1, 8388607, false, 2, 0, false) := by decide
theorem test_addx_second_overflows :
    seen (step (held [0x01000001] 8388607 1)) = some (0, 8388607, true, 1, 0b010, false) := by decide
theorem test_illegal_fetch : seen (step (idle [1] 1)) = some (0, 1, false, 0, 0b001, false) := by decide
theorem test_contract_violation : seen (step (idle [] 1)) = some (0, 1, false, 0, 0b100, false) := by decide
/-- T-WR-1: the first step writes cell 0 with Lit(1, 0) = 1. -/
theorem test_pixel_of_first_step : (idle [0, 0] 1).after.cell 0 = true ∧ (idle [0, 0] 1).after.wrIdx = 1 := by
  decide
/-- T-ENC-7, T-ENC-8, T-ENC-9 and a text of two lines (R77). -/
theorem test_assemble :
    assemble "addx +3".toList = .error .parseError ∧ assemble "addx".toList = .error .parseError ∧
      assemble "mul 2".toList = .error .parseError ∧
      assemble "noop\naddx -5\n".toList = .ok [0x00000000, 0x01FFFFFB] ∧ assemble [] = .ok [] := by
  decide
/-- What State.reset does with nothing loaded: Halted, so a step is a contract violation (R113). -/
theorem test_reset_halted : seen (step State.reset) = some (0, 1, false, 0, 0b100, false) := by decide
/-- The first instruction after reset runs from where `withFetchWord` puts it. -/
theorem test_withFetchWord : seen (step (State.reset.withFetchWord 32 0)) = some (1, 1, false, 1, 0, false) := by
  decide

/-! ### Witnesses: a state and operands that meet a statement's hypotheses together -/

theorem idle_inv (ws : List Word) (h : ws.length < 16) : (idle ws 1).Inv where
  range := ⟨(by decide : IntFits 24 1), (by decide : IntFits 24 0), (by decide : 0 < 2 ^ 4),
    (by decide : 0 < 2 ^ 8), h, wf_ofWords ws wf_nil 0⟩
  pc_le := Nat.zero_le _
  latch_addx := ⟨fun h => absurd h Bool.false_ne_true, rfl⟩
  latch_pc := fun h => absurd h Bool.false_ne_true
  cycle_ge := Nat.le_refl _
  cycle_le := Nat.le_refl _
  wrIdx := rfl
  faults := faultInv_of_fault_eq_zero _ rfl

theorem idle_range : (idle [0, 0x01000001] 1).InRange := (idle_inv _ (by decide)).range

theorem witness_DecodeOfEncode : wellFormed (.addx (-8388608)) = true ∧ wellFormed (.addx 8388607) = true := by
  decide
theorem witness_EncodeOfDecode : decode 0x01800000 = .instr (.addx (-8388608)) ∧
    wellFormed (.addx (-8388608)) = true ∧ encode (.addx (-8388608)) = 0x01800000 := by decide
theorem witness_OpcodeMap :
    (opcOf 0x00000000 = 0x00 ∧ imm24Of 0x00000000 = 0) ∧ (opcOf 0x00FFFFFF = 0x00 ∧ imm24Of 0x00FFFFFF ≠ 0) ∧
      opcOf 0x01FFFFFF = 0x01 ∧ 0x02 ≤ (opcOf 0x02000000).toNat ∧ 0x02 ≤ (opcOf 0xFFFFFFFF).toNat := by
  decide
theorem witness_AddxDeltaIsSignExtended :
    decode 0x017FFFFF = .instr (.addx 8388607) ∧ decode 0x01800000 = .instr (.addx (-8388608)) := by decide
theorem witness_ByteImageRoundTrip : ([0, 0x01FFFFFB] : List Word)[1]? = some 0x01FFFFFB ∧ 3 < 4 := by decide
/-- At PC_W = 4 a program of 15 words fits and one of 16 is refused. -/
theorem witness_LoadPlacesTheProgram :
    (List.replicate 15 (0 : Word)).length < 2 ^ (idle [] 1).params.pcW ∧
      2 ^ (idle [] 1).params.pcW ≤ (List.replicate 16 (0 : Word)).length := by decide
theorem witness_FetchReturnsTheLoadedWord :
    (∃ t, boot p24 [0, 0x01000003] = .ok t) ∧ ([0, 0x01000003] : List Word)[1]? = some 0x01000003 :=
  ⟨⟨_, rfl⟩, rfl⟩
theorem witness_AssembledWordsAreLegal : assemble "addx -5".toList = .ok [0x01FFFFFB] := by decide
theorem witness_ResetMeetsTheInvariant : Memory.wf [(0, 0xFB), (3, 0x01)] ∧ 15 < 2 ^ p24.pcW := by decide
theorem witness_StepRunsTheInstructionInHand :
    ((idle [0] 1).runnable = true ∧ (idle [0] 1).latch.valid = false ∧
      decode (Memory.readWord (idle [0] 1).imem (idle [0] 1).pc) = .instr .noop) ∧
    ((held [0x01000001] 1 1).runnable = true ∧ (held [0x01000001] 1 1).latch.valid = true ∧
      (held [0x01000001] 1 1).latch.instr = .addx 1) := by decide
theorem witness_PlacedWordRunsNext :
    Memory.wf State.reset.imem ∧ decode (BitVec.ofNat 32 0x01FFFFFB) = .instr (.addx (-5)) := by decide
theorem witness_NoopCommitsInOneStep : (idle [0] 1).latch.valid = false ∧ (held [0] 1 1).latch.cnt = 0 := by
  decide
theorem witness_NoopFrame : ∃ t, exec .noop (idle [0] 1) = .next t := ⟨_, rfl⟩
theorem witness_NoopProgramHaltsAtItsLength : (idle [0, 0] 1).InRange ∧
    (∀ k, k < (idle [0, 0] 1).progLen → (idle [0, 0] 1).programWord k = 0) ∧ 2 ≤ (idle [0, 0] 1).progLen :=
  ⟨(idle_inv [0, 0] (by decide)).range, by decide, by decide⟩
theorem witness_AddxFirstStepLatches :
    wellFormed (.addx (-8388608)) = true ∧ (idle [0x01800000] 1).latch.valid = false := by decide
/-- The largest sum that fits 24 bits. -/
theorem witness_AddxSecondStepCommits : (held [0x01000001] 8388606 1).latch.valid = true ∧
    (held [0x01000001] 8388606 1).latch.cnt = 0 ∧
    IntFits (held [0x01000001] 8388606 1).params.accW ((held [0x01000001] 8388606 1).acc + 1) := by decide
theorem witness_AddxFrame : (∃ t, exec (.addx 1) (held [0x01000001] 8388606 1) = .next t) ∧
    ∃ t, exec (.addx 1) (held [0x01000001] 8388607 1) = .next t := ⟨⟨_, rfl⟩, ⟨_, rfl⟩⟩
theorem witness_AddxTakesTwoSteps : (idle [0, 0x01000001] 1).InRange ∧
    (idle [0x01000001] 1).runnable = true ∧ (idle [0x01000001] 1).latch.valid = false ∧
    decode (Memory.readWord (idle [0x01000001] 1).imem (idle [0x01000001] 1).pc) = .instr (.addx 1) ∧
    IntFits (idle [0x01000001] 1).params.accW ((idle [0x01000001] 1).acc + 1) :=
  ⟨idle_range, by decide, by decide, by decide, by decide⟩
theorem witness_OnlyAddxCommitWritesAcc :
    clockEdge false true (held [0x01000001] 1 1) = .next (held [0x01000001] 1 1).after ∧
      (held [0x01000001] 1 1).after.acc ≠ (held [0x01000001] 1 1).acc ∧
      clockEdge true true (held [0x01000001] 2 1) = .next (held [0x01000001] 2 1).applyReset ∧
      (held [0x01000001] 2 1).applyReset.acc ≠ (held [0x01000001] 2 1).acc :=
  ⟨clockEdge_step _, by decide, rfl, by decide⟩
theorem witness_OnlyCommitAdvancesPc :
    clockEdge false true (idle [0, 0] 1) = .next (idle [0, 0] 1).after ∧
      (idle [0, 0] 1).after.pc ≠ (idle [0, 0] 1).pc ∧ (idle [0, 0] 1).Inv ∧
      clockEdge true false (idle [0, 0] 1).after = .next (idle [0, 0] 1).after.applyReset ∧
      (idle [0, 0] 1).after.applyReset.pc ≠ (idle [0, 0] 1).after.pc :=
  ⟨clockEdge_step _, by decide, idle_inv _ (by decide), rfl, by decide⟩
/-- A step that completes, one that faults, and an edge without a step. -/
theorem witness_CycleCounterRule :
    (clockEdge false true (idle [0] 1) = .next (idle [0] 1).after ∧ (idle [0] 1).after.fault = 0 ∧
      (idle [0] 1).Inv) ∧
    (clockEdge false true (idle [1] 1) = .next (idle [1] 1).after ∧ (idle [1] 1).after.fault ≠ 0) ∧
    clockEdge false false (idle [0] 1) = .next (idle [0] 1) ∧
    clockEdge true true (idle [0] 1) = .next (idle [0] 1).applyReset :=
  ⟨⟨clockEdge_step _, by decide, idle_inv _ (by decide)⟩, ⟨clockEdge_step _, by decide⟩, rfl, rfl⟩
theorem witness_CountDownOrCommit : (idle [0, 0x01000001] 1).InRange ∧
    step (idle [0, 0x01000001] 1) = .next (idle [0, 0x01000001] 1).after ∧
    (idle [0, 0x01000001] 1).after.fault = 0 := ⟨idle_range, step_eq_after _, by decide⟩
theorem witness_RunnableFallsAtTheEnd : (idle [0] 1).Inv ∧ (idle [0] 1).runnable = true ∧
    step (idle [0] 1) = .next (idle [0] 1).after ∧ (idle [0] 1).after.runnable = false :=
  ⟨idle_inv _ (by decide), by decide, step_eq_after _, by decide⟩
theorem witness_LatchHoldsAddxBetweenSteps : (held [0x01000001] 1 1).latch.op = .addx ∧
    (held [0x01000001] 1 1).latch.cnt = 0 ∧
    clockEdge false true (held [0x01000001] 1 1) = .next (held [0x01000001] 1 1).after :=
  ⟨rfl, rfl, clockEdge_step _⟩
theorem witness_StepKeepsWidths : (idle [0, 0x01000001] 1).InRange ∧
    step (idle [0, 0x01000001] 1) = .next (idle [0, 0x01000001] 1).after := ⟨idle_range, step_eq_after _⟩
theorem witness_StepKeepsTheInvariant : (idle [1] 1).Inv ∧ step (idle [1] 1) = .next (idle [1] 1).after :=
  ⟨idle_inv _ (by decide), step_eq_after _⟩
theorem witness_EveryHostRunKeepsTheInvariant : ∃ t, boot p24 [0, 0x02000000] = .ok t := ⟨_, rfl⟩
theorem witness_CountersNeverWrap : (idle (List.replicate 15 0) 1).Inv ∧
    (idle (List.replicate 15 0) 1).runnable = true := ⟨idle_inv _ (by decide), by decide⟩
/-- Both kinds of illegal word, and a step that newly sets bit 0. -/
theorem witness_IllegalInstructionFault :
    ((idle [1] 1).runnable = true ∧ (idle [1] 1).latch.valid = false ∧
      opcOf (Memory.readWord (idle [1] 1).imem 0) = 0x00 ∧ imm24Of (Memory.readWord (idle [1] 1).imem 0) ≠ 0) ∧
    ((idle [0x02000000] 1).runnable = true ∧ opcOf (Memory.readWord (idle [0x02000000] 1).imem 0) = 0x02) ∧
    (step (idle [1] 1) = .next (idle [1] 1).after ∧ (idle [1] 1).hasFault .illegalInstruction = false ∧
      (idle [1] 1).after.hasFault .illegalInstruction = true) :=
  ⟨by decide, by decide, step_eq_after _, by decide, by decide⟩
theorem witness_AccOverflowFault :
    ((held [0x01FFFFFF] (-8388608) (-1)).runnable = true ∧
      (held [0x01FFFFFF] (-8388608) (-1)).latch.valid = true ∧
      ¬IntFits (held [0x01FFFFFF] (-8388608) (-1)).params.accW (-8388608 + -1)) ∧
    step (held [0x01FFFFFF] (-8388608) (-1)) = .next (held [0x01FFFFFF] (-8388608) (-1)).after ∧
    (held [0x01FFFFFF] (-8388608) (-1)).hasFault .accOverflow = false ∧
    (held [0x01FFFFFF] (-8388608) (-1)).after.hasFault .accOverflow = true :=
  ⟨by decide, step_eq_after _, by decide, by decide⟩
theorem witness_ContractViolationFault : (idle [] 1).runnable = false ∧
    step (idle [] 1) = .next (idle [] 1).after ∧ (idle [] 1).hasFault .contractViolation = false ∧
    (idle [] 1).after.hasFault .contractViolation = true :=
  ⟨by decide, step_eq_after _, by decide, by decide⟩
/-- A step that raises each of two causes from a state without a fault; for `s.Inv` see `held_inv`. -/
theorem witness_FaultsArePrecise :
    (step (idle [1] 1) = .next (idle [1] 1).after ∧ (idle [1] 1).after.fault ≠ 0 ∧ (idle [1] 1).fault = 0 ∧
      (idle [1] 1).after.hasFault .illegalInstruction = true) ∧
    (step (held [0x01000001] 8388607 1) = .next (held [0x01000001] 8388607 1).after ∧
      (held [0x01000001] 8388607 1).fault = 0 ∧
      (held [0x01000001] 8388607 1).after.hasFault .accOverflow = true) :=
  ⟨⟨step_eq_after _, by decide, by decide, by decide⟩,
    step_eq_after _, by decide, by decide⟩
/-- A state of a run whose next step overflows. -/
theorem held_inv : (held [0x01000001] 8388607 1).Inv where
  range := ⟨by decide, by decide, by decide, by decide, by decide,
    by decide⟩
  pc_le := by decide
  latch_addx := ⟨fun _ => rfl, rfl⟩
  latch_pc := fun _ => by decide
  cycle_ge := by decide
  cycle_le := by decide
  wrIdx := by decide
  faults := faultInv_of_fault_eq_zero _ rfl
theorem witness_AtMostOneFaultAStep : step (idle [] 1) = .next (idle [] 1).after ∧ (idle [] 1).runnable = false ∧
    step (idle [0] 1) = .next (idle [0] 1).after ∧ (idle [0] 1).runnable = true :=
  ⟨step_eq_after _, by decide, step_eq_after _, by decide⟩
theorem witness_OnlyResetLeavesFaulted : (idle [1] 1).after.faulted = true ∧
    ∀ e ∈ [(false, true), (false, false)], e.1 = false := by decide
theorem witness_OnlyResetLeavesHalted : (idle [0] 1).after.halted = true ∧
    ∀ e ∈ [(false, true), (false, false)], e.1 = false := by decide
theorem witness_WriterActsInEveryStep :
    (step (idle [0] 1) = .next (idle [0] 1).after ∧ (idle [0] 1).after.fault = 0) ∧
    (step (idle [1] 1) = .next (idle [1] 1).after ∧ (idle [1] 1).after.fault ≠ 0) :=
  ⟨⟨step_eq_after _, by decide⟩, step_eq_after _, by decide⟩
theorem witness_DisplayAfterKSteps : ((idle [0, 0] 1).applyReset.afterN 2).fault = 0 := by decide
theorem witness_FullRasterStaysAndIsRead : ({ idle [0, 0] 1 with wrIdx := 240 } : State).rasterFull = true ∧
    (239 : BitVec 8).toNat < Config.NCELL ∧ Config.NCELL ≤ (240 : BitVec 8).toNat := by decide
theorem witness_RenderedGrid : 5 < 6 ∧ 39 < 40 ∧ 40 * 5 + 39 < Config.NCELL := by decide
theorem witness_DriverNeverViolatesTheContract : (idle [0] 1).hasFault .contractViolation = false := by
  decide
theorem witness_RunToHaltEnds : (idle [0, 0x01000001] 1).InRange := idle_range
theorem witness_CycleCountOfAProgram : (idle [0, 0] 1).InRange ∧ (idle [0, 0] 1).faultFree :=
  ⟨(idle_inv [0, 0] (by decide)).range, by unfold State.faultFree State.clean; decide⟩
theorem witness_CheckpointSum : (idle [0, 0x01000001] 1).InRange ∧ targetsOk [1, 3] ∧
    ∀ t ∈ ([1, 3] : List Int), ((idle [0, 0x01000001] 1).applyReset.afterN (t.toNat - 1)).runnable = true :=
  ⟨idle_range, by decide, by decide⟩
theorem witness_CheckpointErrors :
    ((idle [0, 0] 1).InRange ∧ targetsOk [2, 3] ∧ (idle [0, 0] 1).faultFree ∧ ((idle [0, 0] 1).cycleCount : Int) < 3) ∧
    ((idle [1] 1).InRange ∧ targetsOk [2] ∧ ¬(idle [1] 1).faultFree ∧
      ((idle [1] 1).applyReset.afterN 1).runnable = false) ∧
    ((idle [] 1).progLen = 0 ∧ targetsOk [1]) :=
  ⟨⟨(idle_inv [0, 0] (by decide)).range, by decide,
      by unfold State.faultFree State.clean; decide, by decide⟩,
    ⟨(idle_inv [1] (by decide)).range, by decide,
      by unfold State.faultFree State.clean; decide, by decide⟩, by decide⟩
/-- A list sampled whole, one past a clean end, one past a fault, and a refused one. -/
theorem witness_CheckpointRunEnds :
    ((idle [0, 0x01000001] 1).InRange ∧ targetsOk [1, 3] ∧
      ((idle [0, 0x01000001] 1).checkpointRun [1, 3]).value = .ok 4 ∧ targetsOk [4] ∧
      ((idle [0, 0x01000001] 1).checkpointRun [4]).value = .error .insufficientCycles) ∧
    ((idle [1] 1).InRange ∧ targetsOk [2] ∧
      ((idle [1] 1).checkpointRun [2]).value = .error (.engineFault 0b001)) ∧
    ¬targetsOk [3, 3] :=
  ⟨⟨idle_range, by decide, by decide, by decide, by decide⟩,
    ⟨(idle_inv [1] (by decide)).range, by decide, by decide⟩, by decide⟩
theorem witness_BadTargetsAreRefused : (3 : Int) ≤ 3 ∧ (0 : Int) < 1 := by decide
theorem witness_RunsDependOnlyOnTheProgram : (held [0] 5 1).params = (idle [0] 1).params ∧
    (held [0] 5 1).imem = (idle [0] 1).imem ∧ (held [0] 5 1).progLen = (idle [0] 1).progLen := ⟨rfl, rfl, rfl⟩
theorem witness_PortsCarryTheRegisters : (idle [0, 0x01000001] 1).InRange ∧
    (idle [0, 0x01000001] 1).latch.valid = false ∧ (held [0x01000001] 8388607 1).InRange ∧
    (held [0x01000001] 8388607 1).latch.valid = true := ⟨idle_range, rfl, held_inv.range, rfl⟩

end Sys2Proof.Machine.Tests
end

section
/-! PROOFS. The form of a step as an inductive relation, equivalent to `step`, and what a held ADDX says of the
latch. Whatever speaks of one step goes by cases on it. -/

namespace Sys2Proof.Machine

variable {s t : State}

/-! ### The form of a step -/

/-- The condition under which a step started in `s` raises a fault (60_exceptions.md R172-R174). -/
inductive State.Raises (s : State) : FaultCause → Prop
  | contractViolation (runnable : s.runnable = false) : s.Raises .contractViolation
  | illegalInstruction {why : IllegalWord} (runnable : s.runnable = true) (empty : s.latch.valid = false)
      (illegal : s.fetch = .illegal why) : s.Raises .illegalInstruction
  | accOverflow {delta : Int} (runnable : s.runnable = true) (inHand : s.inHand = .instr (.addx delta))
      (counter : s.counter (.addx delta) = 0) (overflow : ¬IntFits s.params.accW (s.acc + delta)) :
      s.Raises .accOverflow

/-- A step leads from `s` to `t`, by its form: a raise, a count-down or a commit (40_execution_cycle.md R100). NOOP's
delta is 0 (R75), so one form covers both commits. -/
inductive State.StepsTo (s : State) : State → Prop
  | raise {f : FaultCause} (raises : s.Raises f) : s.StepsTo (s.raise f)
  | countDown {i : Instr} (runnable : s.runnable = true) (inHand : s.inHand = .instr i)
      (counter : s.counter i ≠ 0) :
      s.StepsTo ((s.countDown i (s.counter i)).writePixel s.acc).tick
  | commit {i : Instr} (runnable : s.runnable = true) (inHand : s.inHand = .instr i)
      (counter : s.counter i = 0) (fits : i = .noop ∨ IntFits s.params.accW (s.acc + deltaOf i)) :
      s.StepsTo (({ s with acc := s.acc + deltaOf i } : State).retire.writePixel s.acc).tick

/-- The effect a commit of an instruction applies (R120, R121). -/
def effectOf : Instr → State → Attempt
  | .noop => effectNoop
  | .addx delta => effectAddx delta

theorem exec_eq_cycleWith (i : Instr) (s : State) : exec i s = .next (s.cycleWith i (effectOf i)) := by
  cases i <;> rfl

theorem after_of_inHand {i : Instr} (hr : s.runnable = true) (hi : s.inHand = .instr i) :
    s.after = s.cycleWith i (effectOf i) :=
  after_of_exec s hr hi (exec_eq_cycleWith i s)

theorem effectOf_fits {i : Instr} (h : i = .noop ∨ IntFits s.params.accW (s.acc + deltaOf i)) :
    effectOf i s = .done { s with acc := s.acc + deltaOf i } := by
  cases i with
  | noop => simp [effectOf, effectNoop, deltaOf]
  | addx delta => exact effectAddx_fits s (h.resolve_left Instr.noConfusion)

/-- What a step does has one of the three forms. -/
theorem stepsTo_after (s : State) : s.StepsTo s.after := by
  rcases after_cases s with ⟨hr, h⟩ | ⟨hr, hv, ⟨why, hw⟩, h⟩ | ⟨hr, i, hi, hc, h⟩ | ⟨hr, hi, hc, h⟩ |
    ⟨hr, delta, hi, hc, hf, h⟩ | ⟨hr, delta, hi, hc, hf, h⟩ <;> rw [h]
  · exact .raise (.contractViolation hr)
  · exact .raise (.illegalInstruction hr hv hw)
  · exact .countDown hr hi hc
  · simpa [deltaOf] using State.StepsTo.commit hr hi hc (.inl rfl)
  · exact .commit hr hi hc (.inr hf)
  · exact .raise (.accOverflow hr hi hc hf)

/-- Each form's condition fixes the state after the step. -/
theorem State.StepsTo.eq_after (h : s.StepsTo t) : t = s.after := by
  cases h with
  | raise hf =>
    cases hf with
    | contractViolation hr => exact (after_of_not_runnable s hr).symm
    | illegalInstruction hr hv hw =>
      exact next_eq_after s (step_of_illegal s hr ((inHand_of_empty s hv).trans hw))
    | accOverflow hr hi hc hf =>
      rw [after_of_inHand hr hi, effectOf, cycleWith_raised s hc (effectAddx_overflows s hf)]
  | countDown hr hi hc => rw [after_of_inHand hr hi, cycleWith_countDown s _ hc]
  | commit hr hi hc hf => rw [after_of_inHand hr hi, cycleWith_commit s hc (effectOf_fits hf)]

theorem step_iff_stepsTo : step s = .next t ↔ s.StepsTo t := by
  constructor
  · intro h
    exact next_eq_after s h ▸ stepsTo_after s
  · intro h
    exact h.eq_after ▸ step_eq_after s

/-! ### The instruction in hand -/

/-- An ADDX that commits is the one the latch holds (R107). -/
theorem held_of_addx_commit {delta : Int} (hi : s.inHand = .instr (.addx delta))
    (hc : s.counter (.addx delta) = 0) :
    s.latch.valid = true ∧ s.latch.op = .addx ∧ s.latch.delta = delta ∧ s.latch.cnt = 0 := by
  have hv := valid_of_addx_commit s hc
  have hl : s.latch.instr = .addx delta := by simpa [State.inHand, hv] using hi
  have hcnt : s.latch.cnt = 0 := by simpa [State.counter, hv] using hc
  cases ho : s.latch.op with
  | noop => simp [Latch.instr, ho] at hl
  | addx => exact ⟨hv, rfl, by simpa [Latch.instr, ho] using hl, hcnt⟩

/-- With the held counter at 0, what counts down is an ADDX just fetched (R104). -/
theorem fetched_of_countDown {i : Instr} (hcnt : s.latch.cnt = 0) (hc : s.counter i ≠ 0) :
    s.latch.valid = false ∧ ∃ delta, i = .addx delta := by
  have hv : s.latch.valid = false := by
    cases hv : s.latch.valid with
    | false => rfl
    | true => simp [State.counter, hv, hcnt] at hc
  cases i with
  | noop => simp [State.counter, hv, opOf, latency] at hc
  | addx delta => exact ⟨hv, delta, rfl⟩

/-! ### Commit -/

/-- The commit form is `Committed`, whatever value goes to `acc`. -/
theorem committed_commit (s : State) (a : Int) :
    Committed s (({ s with acc := a } : State).retire.writePixel s.acc).tick where
  latch := by simp
  pc := by simp
  cycle := by simp
  fault := by simp
  writer := writerActs_finish rfl rfl
  program := ⟨by simp, by simp, by simp⟩

/-! ### Recorded faults -/

theorem hasFault_raise (s : State) (f g : FaultCause) :
    (s.raise f).hasFault g = (s.hasFault g || decide (f = g)) := by
  simp only [State.hasFault, raise_fault, BitVec.getLsbD_or]
  cases f <;> cases g <;> rfl

theorem hasFault_of_fault_eq_zero (h : s.fault = 0) (f : FaultCause) : s.hasFault f = false := by
  simp [State.hasFault, h]

/-- A nonzero fault register records one of the three causes (R175). -/
theorem exists_hasFault (h : s.fault ≠ 0) : ∃ f, s.hasFault f = true := by
  have key : ∀ b : BitVec 3, b ≠ 0 → ∃ f : FaultCause, b.getLsbD f.code = true := by
    intro b hb
    have bits : b.getLsbD 0 = true ∨ b.getLsbD 1 = true ∨ b.getLsbD 2 = true := by
      revert b; decide
    rcases bits with h | h | h
    · exact ⟨.illegalInstruction, h⟩
    · exact ⟨.accOverflow, h⟩
    · exact ⟨.contractViolation, h⟩
  exact key s.fault h

@[simp] theorem raise_fetch (s : State) (f : FaultCause) : (s.raise f).fetch = s.fetch := rfl
@[simp] theorem raise_halted (s : State) (f : FaultCause) : (s.raise f).halted = s.halted := rfl

/-- A raise explains the bit it records (R171-R174). -/
theorem State.Raises.faultInv {f : FaultCause} (h : s.Raises f) (hs : s.FaultInv) : (s.raise f).FaultInv := by
  cases h with
  | contractViolation hr =>
    refine ⟨fun h => hs.illegal (by simpa [hasFault_raise] using h),
      fun h => hs.overflow (by simpa [hasFault_raise] using h), fun _ => ?_⟩
    by_cases h0 : s.fault = 0
    · left
      simpa [State.runnable, State.faulted, h0] using hr
    · obtain ⟨g, hg⟩ := exists_hasFault h0
      simp only [raise_halted, hasFault_raise]
      cases g with
      | illegalInstruction => simp [hg]
      | accOverflow => simp [hg]
      | contractViolation => simpa using hs.contract hg
  | illegalInstruction hr hv hw =>
    have h0 := hasFault_of_fault_eq_zero (fault_of_runnable hr)
    constructor <;> simp [hasFault_raise, h0, hv, hw, pc_lt_of_runnable hr hv]
  | accOverflow hr hi hc hf =>
    have h0 := hasFault_of_fault_eq_zero (fault_of_runnable hr)
    obtain ⟨hv, -, hd, -⟩ := held_of_addx_commit hi hc
    have ho : addxOverflows (s.raise .accOverflow) s.latch.delta = true :=
      (addxOverflows_iff s s.latch.delta).mpr (hd ▸ hf)
    constructor <;> simp [hasFault_raise, h0, hv, ho]

end Sys2Proof.Machine
end

section
/-! PROOFS. What every step keeps: the widths, R28's latch, and the whole invariant; then every run of edges. -/

namespace Sys2Proof.Machine

variable {s t : State}

/-! ### Edges -/

@[simp] theorem clockEdge_reset (s : State) (stepIn : Bool) : clockEdge true stepIn s = .next s.applyReset := rfl

@[simp] theorem clockEdge_idle (s : State) : clockEdge false false s = .next s := rfl

/-- What one edge can do: reset, a step, or nothing. -/
theorem clockEdge_cases {rst stepIn : Bool} (h : clockEdge rst stepIn s = .next t) :
    (rst = true ∧ t = s.applyReset) ∨ (rst = false ∧ stepIn = true ∧ s.StepsTo t) ∨
    (rst = false ∧ stepIn = false ∧ t = s) := by
  cases rst with
  | true => exact .inl ⟨rfl, by simpa using h.symm⟩
  | false =>
    cases stepIn with
    | true => exact .inr (.inl ⟨rfl, rfl, step_iff_stepsTo.mp h⟩)
    | false => exact .inr (.inr ⟨rfl, rfl, by simpa using h.symm⟩)

/-! ### Widths -/

theorem accW_pos (p : Params) : 1 ≤ p.accW := le_trans (by decide) p.accW_ge

theorem State.StepsTo.inRange (h : s.StepsTo t) (hs : s.InRange) : t.InRange := by
  cases h with
  | raise _ => exact ⟨hs.acc, hs.delta, hs.pc, hs.cycle, hs.progLen, hs.imem⟩
  | countDown _ _ _ =>
    constructor
    case delta => simpa using IntFits_narrowInt (accW_pos s.params) _
    case cycle => simpa using Nat.mod_lt _ (Nat.two_pow_pos _)
    case acc => simpa using hs.acc
    case pc => simpa using hs.pc
    case progLen => simpa using hs.progLen
    case imem => simpa using hs.imem
  | @commit i _ _ _ hf =>
    constructor
    case acc =>
      rcases hf with rfl | hf
      · simpa [deltaOf] using hs.acc
      · simpa using hf
    case delta => simpa [clearLatch_delta] using IntFits_toInt (accW_pos s.params) _
    case pc => simpa using Nat.mod_lt _ (Nat.two_pow_pos _)
    case cycle => simpa using Nat.mod_lt _ (Nat.two_pow_pos _)
    case progLen => simpa using hs.progLen
    case imem => simpa using hs.imem

/-! ### The latch between steps -/

theorem State.StepsTo.latch_addx (h : s.StepsTo t)
    (hs : (s.latch.valid = true → s.latch.op = .addx) ∧ s.latch.cnt = 0) :
    (t.latch.valid = true → t.latch.op = .addx) ∧ t.latch.cnt = 0 := by
  cases h with
  | raise _ => exact hs
  | countDown _ _ hc =>
    obtain ⟨-, delta, rfl⟩ := fetched_of_countDown hs.2 hc
    exact ⟨by simp [opOf], by simpa using cnt_sub_one hc⟩
  | commit _ _ _ _ => simp

/-! ### The counters of a run -/

/-- In a runnable state of a run `pc` is the index of an instruction (R25, R30). -/
theorem State.Inv.pc_lt (hs : s.Inv) (hr : s.runnable = true) : s.pc < s.progLen := by
  cases hv : s.latch.valid with
  | false => exact pc_lt_of_runnable hr hv
  | true => exact (hs.latch_pc hv).1

theorem inFlight_le_one (s : State) : s.inFlight ≤ 1 := by
  unfold State.inFlight; split <;> omega

theorem State.Inv.cycle_lt (hs : s.Inv) (hr : s.runnable = true) : s.cycle < 2 * s.progLen := by
  have := hs.pc_lt hr
  have := hs.cycle_le
  have := inFlight_le_one s
  omega

theorem State.Inv.pc_succ_lt (hs : s.Inv) (hr : s.runnable = true) : s.pc + 1 < 2 ^ s.params.pcW :=
  lt_of_le_of_lt (hs.pc_lt hr) hs.range.progLen

/-- CYCLE_W is at least PC_W + 1 (R8), so twice PROG_LEN fits `cycle`. -/
theorem State.Inv.cycle_succ_lt (hs : s.Inv) (hr : s.runnable = true) : s.cycle + 1 < 2 ^ s.params.cycleW := by
  have hc := hs.cycle_lt hr
  have hl := hs.range.progLen
  have hp : 2 ^ s.params.pcW * 2 ≤ 2 ^ s.params.cycleW :=
    (pow_succ 2 s.params.pcW).symm.trans_le (Nat.pow_le_pow_right (by decide) s.params.cycleW_ge)
  omega

/-! ### The invariant -/

/-- The writer keeps `wr_idx` the number of cells written, at most NCELL (R35). -/
theorem writePixel_wrIdx_min {n : Nat} (a : Int) (h : s.wrIdx.toNat = min n Config.NCELL) :
    (s.writePixel a).wrIdx.toNat = min (n + 1) Config.NCELL := by
  by_cases hw : s.wrIdx.toNat < Config.NCELL
  · rw [writePixel_wrIdx_toNat s a hw]; omega
  · rw [writePixel_full s a (by omega)]; omega

theorem State.Inv.raise {f : FaultCause} (hs : s.Inv) (hf : s.Raises f) : (s.raise f).Inv where
  range := (State.StepsTo.raise hf).inRange hs.range
  pc_le := hs.pc_le
  latch_addx := hs.latch_addx
  latch_pc := hs.latch_pc
  cycle_ge := hs.cycle_ge
  cycle_le := hs.cycle_le
  wrIdx := hs.wrIdx
  faults := hf.faultInv hs.faults

/-- The ADDX just latched is the one at `pc`: the latch holds an encodable delta unchanged (R25, R73). -/
theorem holding_instr_of_fetch {delta : Int} (c : BitVec 1) (h : s.fetch = .instr (.addx delta)) :
    (Latch.holding s.params.accW (.addx delta) c).instr = .addx delta := by
  have hfits := IntFits_mono s.params.accW_ge (fits_of_decode h)
  simp [Latch.instr, opOf, deltaOf, narrowInt_of_fits (accW_pos s.params) hfits]

theorem State.Inv.countDown {i : Instr} (hs : s.Inv) (hr : s.runnable = true) (hi : s.inHand = .instr i)
    (hc : s.counter i ≠ 0) : ((s.countDown i (s.counter i)).writePixel s.acc).tick.Inv := by
  have h : s.StepsTo _ := .countDown hr hi hc
  obtain ⟨hv, delta, rfl⟩ := fetched_of_countDown hs.latch_addx.2 hc
  have hfetch : s.fetch = .instr (.addx delta) := inHand_of_empty s hv ▸ hi
  have hcyc := Nat.mod_eq_of_lt (hs.cycle_succ_lt hr)
  have hge := hs.cycle_ge
  have hle := hs.cycle_le
  simp only [State.inFlight, hv, Bool.false_eq_true, if_false] at hge hle
  exact {
    range := h.inRange hs.range
    pc_le := by simpa using hs.pc_le
    latch_addx := h.latch_addx hs.latch_addx
    latch_pc := fun _ => ⟨by simpa using hs.pc_lt hr,
      (fetch_congr (s := s) (by simp) (by simp) (by simp)).trans
        (by simpa [holding_instr_of_fetch _ hfetch] using hfetch)⟩
    cycle_ge := by simpa [State.inFlight, hcyc] using hge
    cycle_le := by simpa [State.inFlight, hcyc] using hle
    wrIdx := by simpa [hcyc] using writePixel_wrIdx_min (s := s.countDown _ _) s.acc hs.wrIdx
    faults := faultInv_of_fault_eq_zero _ (by simpa using fault_of_runnable hr) }

theorem State.Inv.commit {i : Instr} (hs : s.Inv) (hr : s.runnable = true) (hi : s.inHand = .instr i)
    (hc : s.counter i = 0) (hf : i = .noop ∨ IntFits s.params.accW (s.acc + deltaOf i)) :
    (({ s with acc := s.acc + deltaOf i } : State).retire.writePixel s.acc).tick.Inv := by
  have h : s.StepsTo _ := .commit hr hi hc hf
  have hpc := Nat.mod_eq_of_lt (hs.pc_succ_lt hr)
  have hcyc := Nat.mod_eq_of_lt (hs.cycle_succ_lt hr)
  have hge' : s.pc ≤ s.cycle := le_trans (Nat.le_add_right _ _) hs.cycle_ge
  have hle' : s.cycle + 1 ≤ 2 * (s.pc + 1) := by
    have := hs.cycle_le
    have := inFlight_le_one s
    omega
  exact {
    range := h.inRange hs.range
    pc_le := by simpa [hpc] using hs.pc_lt hr
    latch_addx := h.latch_addx hs.latch_addx
    latch_pc := by simp
    cycle_ge := by simpa [State.inFlight, hpc, hcyc] using hge'
    cycle_le := by simpa [State.inFlight, hpc, hcyc] using hle'
    wrIdx := by
      simpa [hcyc] using
        writePixel_wrIdx_min (s := State.retire { s with acc := s.acc + deltaOf i }) s.acc hs.wrIdx
    faults := faultInv_of_fault_eq_zero _ (by simpa using fault_of_runnable hr) }

theorem State.StepsTo.inv (h : s.StepsTo t) (hs : s.Inv) : t.Inv := by
  cases h with
  | raise hf => exact hs.raise hf
  | countDown hr hi hc => exact hs.countDown hr hi hc
  | commit hr hi hc hf => exact hs.commit hr hi hc hf

/-! ### Reset and runs of edges -/

/-- Reset of any block whose program memory is canonical and whose PROG_LEN fits its port (R190). -/
theorem resetFor_inv (p : Params) {m : List Host.Cell} {n : Nat} (free : Nat) (hm : Memory.wf m)
    (hn : n < 2 ^ p.pcW) : (State.resetFor p m n free).Inv where
  range :=
    { acc := IntFits_mono p.accW_ge (by decide : IntFits 24 1)
      delta := IntFits_mono p.accW_ge (by decide : IntFits 24 0)
      pc := Nat.two_pow_pos _
      cycle := Nat.two_pow_pos _
      progLen := hn
      imem := hm }
  pc_le := Nat.zero_le _
  latch_addx := ⟨fun h => absurd h Bool.false_ne_true, rfl⟩
  latch_pc := fun h => absurd h Bool.false_ne_true
  cycle_ge := Nat.le_refl _
  cycle_le := Nat.le_refl _
  wrIdx := rfl
  faults := faultInv_of_fault_eq_zero _ rfl

theorem State.Inv.applyReset (hs : s.Inv) : s.applyReset.Inv :=
  resetFor_inv s.params s.freeDraws hs.range.imem hs.range.progLen

/-- Every edge answers a next state. -/
theorem clockEdge_next (rst stepIn : Bool) (s : State) :
    clockEdge rst stepIn s = .next (outcomeState s (clockEdge rst stepIn s)) := by
  cases rst with
  | true => rfl
  | false =>
    cases stepIn with
    | true => exact step_eq_after s
    | false => rfl

/-- What reset and every step keep holds after any sequence of edges. -/
theorem afterEdges_keeps {P : State → Prop} (hreset : ∀ u, P u → P u.applyReset)
    (hstep : ∀ u v, State.StepsTo u v → P u → P v) (es : List (Bool × Bool)) (hs : P s) :
    P (s.afterEdges es) := by
  induction es generalizing s with
  | nil => exact hs
  | cons e es ih =>
    have hedge : P (outcomeState s (clockEdge e.1 e.2 s)) := by
      rcases clockEdge_cases (clockEdge_next e.1 e.2 s) with ⟨-, he⟩ | ⟨-, -, he⟩ | ⟨-, -, he⟩
      · exact he.symm ▸ hreset s hs
      · exact hstep _ _ he hs
      · exact he.symm ▸ hs
    exact ih hedge

/-- What the boot order loads (R193). -/
theorem boot_eq {p : Params} {ws : List Word} (h : boot p ws = .ok t) :
    ws.length < 2 ^ p.pcW ∧ t = State.resetFor p (Memory.ofWords [] 0 ws) ws.length 0 := by
  unfold boot State.load at h
  split at h
  next hlen => exact ⟨hlen, (Except.ok.inj h).symm⟩
  next => cases h

theorem boot_inv {p : Params} {ws : List Word} (h : boot p ws = .ok t) : t.Inv := by
  obtain ⟨hlen, rfl⟩ := boot_eq h
  exact resetFor_inv p 0 (wf_ofWords ws wf_nil 0) hlen

/-! ### The obligations -/

/-- Settles O27: by the form of the edge's step; only an ADDX just fetched is put in the latch, with counter 0. -/
theorem latchHoldsAddxBetweenSteps : Obligations.LatchHoldsAddxBetweenSteps := by
  refine ⟨fun _ _ _ _ => ⟨rfl, rfl⟩, fun rst stepIn s t hop hcnt h => ?_⟩
  rcases clockEdge_cases h with ⟨-, rfl⟩ | ⟨-, -, hst⟩ | ⟨-, -, rfl⟩
  · simp
  · exact hst.latch_addx ⟨hop, hcnt⟩
  · exact ⟨hop, hcnt⟩

/-- Settles O29: the invariant is kept by each form of a step (`State.StepsTo.inv`). -/
theorem stepKeepsTheInvariant : Obligations.StepKeepsTheInvariant :=
  fun _ _ hs h => (step_iff_stepsTo.mp h).inv hs

/-- Settles O28: each form of a step stores only what fits (`State.StepsTo.inRange`). -/
theorem stepKeepsWidths : Obligations.StepKeepsWidths :=
  fun _ _ hs h => (step_iff_stepsTo.mp h).inRange hs

/-- Settles O30, by induction on the edges from the loaded state. -/
theorem everyHostRunKeepsTheInvariant : Obligations.EveryHostRunKeepsTheInvariant :=
  fun _ _ _ es h =>
    afterEdges_keeps (fun _ hu => hu.applyReset) (fun _ _ hst hu => hst.inv hu) es (boot_inv h)

/-- Settles O31: from the bounds the invariant puts on `pc` and `cycle`. -/
theorem countersNeverWrap : Obligations.CountersNeverWrap :=
  fun _ hs hr => ⟨hs.pc_succ_lt hr, hs.cycle_succ_lt hr, hs.cycle_lt hr⟩

/-- Settles O22: of the forms of a step only the commit of an ADDX stores in `acc`. -/
theorem onlyAddxCommitWritesAcc : Obligations.OnlyAddxCommitWritesAcc := by
  intro rst stepIn s t h hne
  rcases clockEdge_cases h with ⟨hrst, rfl⟩ | ⟨hrst, hstep, hst⟩ | ⟨-, -, rfl⟩
  · exact .inl ⟨hrst, rfl⟩
  · right
    cases hst with
    | raise _ => exact absurd rfl hne
    | countDown _ _ _ => simp at hne
    | @commit i hr hi hc hf =>
      cases i with
      | noop => simp [deltaOf] at hne
      | addx delta =>
        obtain ⟨hv, hop, hd, hcnt⟩ := held_of_addx_commit hi hc
        exact ⟨hrst, hstep, hr, hv, hop, hcnt, by simp [deltaOf, hd],
          by simpa using hf.resolve_left Instr.noConfusion, committed_commit s _⟩
  · exact absurd rfl hne

/-- Settles O23: of the forms of a step only the commit changes `pc`, and the invariant bounds it there. -/
theorem onlyCommitAdvancesPc : Obligations.OnlyCommitAdvancesPc := by
  intro rst stepIn s t h hne
  rcases clockEdge_cases h with ⟨hrst, rfl⟩ | ⟨hrst, hstep, hst⟩ | ⟨-, -, rfl⟩
  · exact .inl ⟨hrst, rfl⟩
  · right
    cases hst with
    | raise _ => exact absurd rfl hne
    | countDown _ _ _ => simp at hne
    | @commit i hr hi hc hf =>
      refine ⟨hrst, hstep, hr, committed_commit s _, fun hs => ?_⟩
      have hpc := Nat.mod_eq_of_lt (hs.pc_succ_lt hr)
      have hlt := hs.pc_lt hr
      exact ⟨hlt, by simpa using hpc, by simpa [hpc] using hlt, Nat.le_sub_one_of_lt hs.range.progLen⟩
  · exact absurd rfl hne

/-- Settles O10: each of the three cases is the definition's own. -/
theorem edgePriority : Obligations.EdgePriority :=
  fun s stepIn => ⟨clockEdge_reset s stepIn, rfl, clockEdge_idle s⟩

end Sys2Proof.Machine
end

section
/-! PROOFS. What an empty latch holds never shows: `State.visible` commutes, up to itself, with every form of a step. -/

namespace Sys2Proof.Machine

variable {s t : State}

/-! ### What `visible` leaves -/

@[simp] theorem visible_params (s : State) : s.visible.params = s.params := rfl
@[simp] theorem visible_acc (s : State) : s.visible.acc = s.acc := rfl
@[simp] theorem visible_fault (s : State) : s.visible.fault = s.fault := rfl
@[simp] theorem visible_fetch (s : State) : s.visible.fetch = s.fetch := rfl

theorem visible_latch_of_valid (h : s.latch.valid = true) : s.visible.latch = s.latch := by
  simp [State.visible, h]

@[simp] theorem visible_valid (s : State) : s.visible.latch.valid = s.latch.valid := by
  cases h : s.latch.valid <;> simp [State.visible, h]

@[simp] theorem visible_cnt (s : State) : s.visible.latch.cnt = s.latch.cnt := by
  cases h : s.latch.valid <;> simp [State.visible, h]

@[simp] theorem visible_halted (s : State) : s.visible.halted = s.halted := by
  rw [State.halted, visible_valid]; rfl

@[simp] theorem visible_runnable (s : State) : s.visible.runnable = s.runnable := by
  rw [State.runnable, visible_halted]; rfl

@[simp] theorem visible_counter (s : State) (i : Instr) : s.visible.counter i = s.counter i := by
  simp only [State.counter, visible_valid, visible_cnt]

@[simp] theorem visible_inHand (s : State) : s.visible.inHand = s.inHand := by
  cases h : s.latch.valid with
  | false => simp [State.inHand, h]
  | true => simp [State.inHand, h, visible_latch_of_valid h]

@[simp] theorem visible_latchOpOut (s : State) : s.visible.latchOpOut = s.latchOpOut := by
  cases h : s.latch.valid with
  | false => simp [State.latchOpOut, h]
  | true => simp [State.latchOpOut, h, visible_latch_of_valid h]

theorem visible_outputs (s : State) : s.visible.outputs = s.outputs := by
  simp only [State.outputs, visible_halted, visible_runnable, visible_valid, visible_latchOpOut]; rfl

theorem visible_trace (s : State) : s.visible.trace = s.trace := by
  simp only [State.trace, visible_valid, visible_latchOpOut]; rfl

/-! ### `visible` and the operations of a step -/

@[simp] theorem visible_visible (s : State) : s.visible.visible = s.visible := by
  cases h : s.latch.valid <;> simp [State.visible, h]

theorem visible_raise (s : State) (f : FaultCause) : (s.raise f).visible = s.visible.raise f := rfl

theorem visible_tick (s : State) : s.tick.visible = s.visible.tick := rfl

theorem visible_writePixel (s : State) (a : Int) : (s.writePixel a).visible = s.visible.writePixel a := by
  by_cases h : s.wrIdx.toNat < Config.NCELL
  · have hv : s.visible.wrIdx.toNat < Config.NCELL := h
    rw [State.writePixel, State.writePixel, dif_pos h, dif_pos hv]; rfl
  · have hv : Config.NCELL ≤ s.visible.wrIdx.toNat := Nat.le_of_not_lt h
    rw [writePixel_full s a hv, writePixel_full s.visible a hv]

/-- A count-down fills the latch, whatever it held. -/
theorem visible_countDown (s : State) (i : Instr) (c : BitVec 1) :
    (s.visible.countDown i c).visible = (s.countDown i c).visible := rfl

/-- A commit empties the latch, whatever it held. -/
theorem visible_retire (s : State) (a : Int) :
    ({ s.visible with acc := a } : State).retire.visible = ({ s with acc := a } : State).retire.visible := rfl

theorem State.Raises.visible {f : FaultCause} (h : s.Raises f) : s.visible.Raises f := by
  cases h with
  | contractViolation hr => exact .contractViolation (by simpa using hr)
  | illegalInstruction hr hv hw =>
    exact .illegalInstruction (by simpa using hr) (by simpa using hv) (by simpa using hw)
  | accOverflow hr hi hc hf =>
    exact .accOverflow (by simpa using hr) (by simpa using hi) (by simpa using hc) (by simpa using hf)

/-- The visible part of `s` makes the same step as `s`, up to what an empty latch holds. -/
theorem State.StepsTo.visible (h : s.StepsTo t) : ∃ u, s.visible.StepsTo u ∧ u.visible = t.visible := by
  cases h with
  | raise hf => exact ⟨_, .raise hf.visible, by rw [visible_raise, visible_raise, visible_visible]⟩
  | @countDown i hr hi hc =>
    refine ⟨_, .countDown (i := i) (by simpa using hr) (by simpa using hi) (by simpa using hc), ?_⟩
    simp only [visible_tick, visible_writePixel, visible_counter, visible_countDown, visible_acc]
  | @commit i hr hi hc hf =>
    refine ⟨_, .commit (i := i) (by simpa using hr) (by simpa using hi) (by simpa using hc)
      (by simpa using hf), ?_⟩
    simp only [visible_tick, visible_writePixel, visible_retire, visible_acc]

/-- Settles O52: the outputs read the latch only while it is full, and `State.StepsTo.visible` gives the step. -/
theorem emptyLatchContentsNeverShow : Obligations.EmptyLatchContentsNeverShow := by
  intro s
  obtain ⟨u, hu, hv⟩ := (stepsTo_after s).visible
  exact ⟨visible_outputs s, visible_trace s, hu.eq_after ▸ hv⟩

end Sys2Proof.Machine
end

section
/-! PROOFS. The output ports and the logical states (10_state.md R30, R31, R40, R41). -/

namespace Sys2Proof.Machine

variable {s : State}

/-- A port of its register's width carries an unsigned register without loss (R40). -/
theorem toNat_port {n v : Nat} (h : v < 2 ^ n) : (BitVec.ofNat n v).toNat = v := by
  rw [BitVec.toNat_ofNat, Nat.mod_eq_of_lt h]

/-- A port of its register's width carries a signed register without loss (R40). -/
theorem toInt_port {n : Nat} (hn : 1 ≤ n) {v : Int} (h : IntFits n v) : (BitVec.ofInt n v).toInt = v := by
  rw [← narrowInt_eq_toInt, narrowInt_of_fits hn h]

theorem latchOpOut_of_empty (h : s.latch.valid = false) : s.latchOpOut = 0 := by
  simp [State.latchOpOut, h]

theorem latchOpOut_of_valid (h : s.latch.valid = true) : s.latchOpOut = 1 ↔ s.latch.op = .addx := by
  rw [State.latchOpOut, if_pos h]
  cases s.latch.op <;> decide

/-- Settles O53: each port reads back as its register, which its width holds. -/
theorem portsCarryTheRegisters : Obligations.PortsCarryTheRegisters :=
  fun s hs =>
    ⟨toInt_port (accW_pos s.params) hs.acc, toNat_port hs.pc, toNat_port hs.pc, toNat_port hs.cycle,
      rfl, rfl, rfl, latchOpOut_of_empty, latchOpOut_of_valid, rfl, rfl, rfl, rfl⟩

theorem logicalState_eq_executing : s.logicalState = .executing ↔ s.latch.valid = true := by
  unfold State.logicalState
  split_ifs <;> simp_all

theorem logicalState_eq_idle : s.logicalState = .idle ↔ s.latch.valid = false ∧ s.pc < s.progLen := by
  unfold State.logicalState
  split_ifs <;> simp_all

theorem logicalState_eq_halted : s.logicalState = .halted ↔ s.latch.valid = false ∧ s.progLen ≤ s.pc := by
  unfold State.logicalState
  split_ifs <;> simp_all

theorem halted_iff : s.halted = true ↔ s.logicalState = .halted := by
  rw [logicalState_eq_halted]; simp [State.halted]

/-- Settles O54: the logical state by its predicates, and the status outputs by the logical state. -/
theorem logicalStates : Obligations.LogicalStates :=
  fun s => ⟨logicalState_eq_idle, logicalState_eq_executing, logicalState_eq_halted, halted_iff,
    by simp [State.faulted], by rw [runnable_iff, ← Bool.not_eq_true, halted_iff]⟩

end Sys2Proof.Machine
end

section
/-! PROOFS. The little-endian byte image of words (20_memory.md R53), and what a fetch in a run returns (R61). -/

namespace Sys2Proof.Machine

variable {s t : State}

/-! ### Byte images -/

theorem imageOfWords_cons (w : Word) (ws : List Word) :
    imageOfWords (w :: ws) = bytesOfWord w ++ imageOfWords ws := rfl

theorem length_bytesOfWord (w : Word) : (bytesOfWord w).length = 4 := rfl

/-- The bytes of a word at the head of an image are read as that word. -/
theorem wordsOfImage_bytesOfWord_append {bs : List Byte} {ws : List Word} (w : Word)
    (h : wordsOfImage bs = .ok ws) : wordsOfImage (bytesOfWord w ++ bs) = .ok (w :: ws) := by
  simp only [bytesOfWord, List.cons_append, List.nil_append, wordsOfImage, h, wordOfBytes_byteOfWord]

theorem wordsOfImage_imageOfWords (ws : List Word) : wordsOfImage (imageOfWords ws) = .ok ws := by
  induction ws with
  | nil => rfl
  | cons w ws ih => exact wordsOfImage_bytesOfWord_append w ih

/-- Byte `j` of a word by arithmetic on the word (R53). -/
theorem byteOfWord_eq_ofNat (w : Word) (j : Nat) :
    byteOfWord w j = BitVec.ofNat 8 (w.toNat / 2 ^ (8 * j)) := by
  rw [byteOfWord, BitVec.extractLsb', Nat.shiftRight_eq_div_pow]

theorem getElem?_bytesOfWord (w : Word) {j : Nat} (hj : j < 4) :
    (bytesOfWord w)[j]? = some (byteOfWord w j) := by
  match j with
  | 0 | 1 | 2 | 3 => rfl

/-- Byte `4k + j` of an image is byte `j` of word `k`. -/
theorem getElem?_imageOfWords {ws : List Word} {k : Nat} {w : Word} (hw : ws[k]? = some w) {j : Nat}
    (hj : j < 4) : (imageOfWords ws)[4 * k + j]? = some (byteOfWord w j) := by
  induction ws generalizing k with
  | nil => simp at hw
  | cons v ws ih =>
    rw [imageOfWords_cons]
    cases k with
    | zero =>
      obtain rfl : v = w := by simpa using hw
      rw [Nat.mul_zero, Nat.zero_add, List.getElem?_append_left hj, getElem?_bytesOfWord v hj]
    | succ k =>
      have hskip : 4 * (k + 1) + j - (bytesOfWord v).length = 4 * k + j := by
        rw [length_bytesOfWord]; omega
      rw [List.getElem?_append_right (by rw [length_bytesOfWord]; omega), hskip, ih (by simpa using hw)]

/-- Settles O6: the image is read back word by word, and byte `4k + j` is byte `j` of word `k`. -/
theorem byteImageRoundTrip : Obligations.ByteImageRoundTrip :=
  fun ws => ⟨wordsOfImage_imageOfWords ws, fun _ w hw j hj =>
    byteOfWord_eq_ofNat w j ▸ getElem?_imageOfWords hw hj⟩

/-! ### The word at an index, in a run -/

/-- What `imem_rdata` shows depends on program memory and `prog_len` only. -/
theorem programWord_congr (hm : t.imem = s.imem) (hl : t.progLen = s.progLen) (k : Nat) :
    t.programWord k = s.programWord k := by
  rw [State.programWord, State.programWord, hm, hl]

@[simp] theorem applyReset_programWord (s : State) (k : Nat) :
    s.applyReset.programWord k = s.programWord k :=
  programWord_congr (applyReset_imem s) (applyReset_progLen s) k

@[simp] theorem after_programWord (s : State) (k : Nat) : s.after.programWord k = s.programWord k :=
  programWord_congr (after_imem s) (after_progLen s) k

/-- No edge writes program memory (R52). -/
@[simp] theorem afterEdges_programWord (s : State) (es : List (Bool × Bool)) (k : Nat) :
    (s.afterEdges es).programWord k = s.programWord k :=
  afterEdges_keeps (P := fun u => u.programWord k = s.programWord k)
    (fun u hu => (applyReset_programWord u k).trans hu)
    (fun u _ hst hu => hst.eq_after ▸ (after_programWord u k).trans hu) es rfl

/-- Below PROG_LEN the loaded words are what `imem_rdata` shows (R50, R56). -/
theorem programWord_resetFor_ofWords (p : Params) (free : Nat) {ws : List Word} {k : Nat} {w : Word}
    (hw : ws[k]? = some w) :
    (State.resetFor p (Memory.ofWords [] 0 ws) ws.length free).programWord k = w := by
  obtain ⟨hk, -⟩ := List.getElem?_eq_some_iff.mp hw
  have hread : Memory.readWord (Memory.ofWords [] 0 ws) k = w := by
    simp [readWord_ofWords ws wf_nil, hw]
  exact (if_pos hk).trans hread

/-- Settles O8: the boot order puts the word at `k`, and no edge changes it there. -/
theorem fetchReturnsTheLoadedWord : Obligations.FetchReturnsTheLoadedWord := by
  intro p ws t es k w hboot hw
  obtain ⟨-, rfl⟩ := boot_eq hboot
  rw [afterEdges_programWord, programWord_resetFor_ofWords p 0 hw]

end Sys2Proof.Machine
end

section
/-! PROOFS. Decode and the assembly of an instruction are inverse to each other (30_encoding.md R70-R78), and the words
of a text that assembles (R77, R78). -/

namespace Sys2Proof.Machine

variable {w : Word} {i j : Instr} {delta : Int}

/-! ### A word and its two fields -/

theorem opcOf_append_imm24Of (w : Word) : opcOf w ++ imm24Of w = w := by
  rw [opcOf, imm24Of, BitVec.extractLsb'_append_extractLsb'_eq_extractLsb' (by decide)]
  exact BitVec.extractLsb'_eq_self

theorem opcOf_encode (i : Instr) : opcOf (encode i) = opcodeOf i := (Laws.fields_append _ _).1

theorem imm24Of_encode (i : Instr) : imm24Of (encode i) = immOf i := (Laws.fields_append _ _).2

theorem toNat_imm24Of (w : Word) : (imm24Of w).toNat = w.toNat % 2 ^ 24 :=
  BitVec.extractLsb'_toNat 0 24 w

/-! ### The immediate as an integer -/

theorem enc24_sext24 (v : BitVec 24) : enc24 (sext24 v) = v := BitVec.ofInt_toInt

theorem sext24_enc24 (h : IntFits 24 delta) : sext24 (enc24 delta) = delta :=
  (narrowInt_eq_toInt 24 delta).symm.trans (narrowInt_of_fits (by decide) h)

/-- `sext_24` by arithmetic on the word (R11, R73). -/
theorem sext24_imm24Of (w : Word) :
    sext24 (imm24Of w) = if w.toNat % 2 ^ 24 < 2 ^ 23 then ((w.toNat % 2 ^ 24 : Nat) : Int)
      else ((w.toNat % 2 ^ 24 : Nat) : Int) - 2 ^ 24 := by
  rw [sext24, BitVec.toInt_eq_toNat_cond, toNat_imm24Of]
  have half (n : Nat) : 2 * n < 2 ^ 24 ↔ n < 2 ^ 23 := by omega
  simp only [half, Nat.cast_pow, Nat.cast_ofNat]

/-! ### Decode, row by row of R74 and R75 -/

theorem decode_noop (ho : opcOf w = 0x00) (hi : imm24Of w = 0) : decode w = .instr .noop := by
  rw [decode, if_pos ho, if_pos hi]

theorem decode_noopImmediate (ho : opcOf w = 0x00) (hi : imm24Of w ≠ 0) :
    decode w = .illegal .noopImmediate := by
  rw [decode, if_pos ho, if_neg hi]

theorem decode_addx (ho : opcOf w = 0x01) : decode w = .instr (.addx (sext24 (imm24Of w))) := by
  rw [decode, if_neg (by rw [ho]; decide), if_pos ho]

theorem decode_unknownOpcode (h0 : opcOf w ≠ 0x00) (h1 : opcOf w ≠ 0x01) :
    decode w = .illegal .unknownOpcode := by
  rw [decode, if_neg h0, if_neg h1]

/-! ### Decode and encode -/

theorem decode_encode (h : wellFormed i = true) : decode (encode i) = .instr i := by
  cases i with
  | noop => exact decode_noop (opcOf_encode _) (imm24Of_encode _)
  | addx delta =>
    have hfits : IntFits 24 delta := of_decide_eq_true h
    rw [decode_addx (opcOf_encode _), imm24Of_encode, immOf, sext24_enc24 hfits]

theorem wellFormed_of_decode (h : decode w = .instr i) : wellFormed i = true := by
  cases i with
  | noop => rfl
  | addx delta => exact decide_eq_true (fits_of_decode h)

/-- A word that decodes carries the fields of the instruction it decodes to (R72, R75). -/
theorem fields_of_decode (h : decode w = .instr i) : opcOf w = opcodeOf i ∧ imm24Of w = immOf i := by
  by_cases h0 : opcOf w = 0x00
  · by_cases hi : imm24Of w = 0
    · cases (decode_noop h0 hi).symm.trans h
      exact ⟨h0, hi⟩
    · cases (decode_noopImmediate h0 hi).symm.trans h
  · by_cases h1 : opcOf w = 0x01
    · cases (decode_addx h1).symm.trans h
      exact ⟨h1, (enc24_sext24 _).symm⟩
    · cases (decode_unknownOpcode h0 h1).symm.trans h

theorem encode_of_decode (h : decode w = .instr i) : encode i = w := by
  obtain ⟨hopc, himm⟩ := fields_of_decode h
  rw [encode, ← hopc, ← himm, opcOf_append_imm24Of]

theorem encode_inj (hi : wellFormed i = true) (hj : wellFormed j = true) (h : encode i = encode j) : i = j := by
  have hdec := decode_encode hi
  rw [h, decode_encode hj] at hdec
  exact (Decoded.instr.inj hdec).symm

theorem sext24_of_decode (h : decode w = .instr (.addx delta)) : sext24 (imm24Of w) = delta := by
  obtain ⟨-, himm⟩ := fields_of_decode h
  rw [himm, immOf, sext24_enc24 (fits_of_decode h)]

/-- Settles O2: each field of the encoded word is read back, and `sext_24` undoes `enc_24` on a fitting delta. -/
theorem decodeOfEncode : Obligations.DecodeOfEncode := fun _ => decode_encode

/-- Settles O3: the decoded instruction has the word's two fields, and `encode` is injective on well-formed ones. -/
theorem encodeOfDecode : Obligations.EncodeOfDecode := fun _ _ h =>
  ⟨wellFormed_of_decode h, encode_of_decode h, fun _ hj hw =>
    encode_inj hj (wellFormed_of_decode h) (hw.trans (encode_of_decode h).symm)⟩

/-- Settles O5: a delta of 24 bits fits every accumulator R8 allows, so narrowing leaves it as it is. -/
theorem addxDeltaIsSignExtended : Obligations.AddxDeltaIsSignExtended := by
  intro w delta h
  have hfits : IntFits 24 delta := fits_of_decode h
  refine ⟨(sext24_of_decode h).symm.trans (sext24_imm24Of w), hfits.1, hfits.2, fun p cnt => ?_⟩
  have hacc : IntFits p.accW delta := IntFits_mono p.accW_ge hfits
  exact ⟨hacc, narrowInt_of_fits (accW_pos p) hacc⟩

/-- Settles O4: the rows of R72's table are the branches of Decode. -/
theorem opcodeMap : Obligations.OpcodeMap := by
  refine fun w => ⟨fun ho hi => ⟨decode_noop ho hi, rfl⟩, fun ho hi => ⟨_, decode_noopImmediate ho hi⟩,
    fun ho => ⟨_, decode_addx ho, rfl⟩, fun ho => ⟨_, decode_unknownOpcode ?_ ?_⟩⟩
  · intro h0; simp [h0] at ho
  · intro h1; simp [h1] at ho

/-! ### Texts that assemble -/

theorem wellFormed_of_readOperand {cs : List Char} (h : readOperand cs = .ok i) : wellFormed i = true := by
  unfold readOperand at h
  split at h
  · split_ifs at h with hfits
    cases h
    exact decide_eq_true hfits
  · cases h

/-- A line of the grammar gives an instruction the encoding can express (R77). -/
theorem wellFormed_of_parseLine {l : List Char} (h : parseLine l = .ok i) : wellFormed i = true := by
  unfold parseLine at h
  split at h
  · cases h; rfl
  · exact wellFormed_of_readOperand h
  · cases h

/-- Instruction `k` of a text that parses is that of line `k` (R78). -/
theorem forall₂_of_parseLines {ls : List (List Char)} {is : List Instr} (h : parseLines ls = .ok is) :
    List.Forall₂ (fun l i => parseLine l = .ok i) ls is := by
  induction ls generalizing is with
  | nil => cases h; exact .nil
  | cons l ls ih =>
    unfold parseLines at h
    split at h
    · next hl hls => cases h; exact .cons hl (ih hls)
    · cases h
    · cases h

theorem wellFormed_of_parseLines {ls : List (List Char)} {is : List Instr} (h : parseLines ls = .ok is) :
    ∀ i ∈ is, wellFormed i = true := by
  have hlines := forall₂_of_parseLines h
  clear h
  induction hlines with
  | nil => simp
  | cons hl _ ih => exact List.forall_mem_cons.mpr ⟨wellFormed_of_parseLine hl, ih⟩

/-- The words of a text that assembles are the encodings of its lines' instructions (R78). -/
theorem assemble_eq_ok {text : List Char} {ws : List Word} (h : assemble text = .ok ws) :
    ∃ is, parseLines (splitLines text) = .ok is ∧ ws = is.map encode := by
  unfold assemble parseProgram at h
  cases hp : parseLines (splitLines text) with
  | error e => rw [hp] at h; cases h
  | ok is => rw [hp] at h; cases h; exact ⟨is, rfl, rfl⟩

/-- Settles O9: line by line, the words are encodings of well-formed instructions, which decode. -/
theorem assembledWordsAreLegal : Obligations.AssembledWordsAreLegal := by
  intro text ws h
  obtain ⟨is, hparse, rfl⟩ := assemble_eq_ok h
  refine ⟨(List.length_map encode).trans (forall₂_of_parseLines hparse).length_eq.symm, fun w hw => ?_⟩
  obtain ⟨i, hi, rfl⟩ := List.mem_map.mp hw
  have hwf := wellFormed_of_parseLines hparse i hi
  exact ⟨i, hwf, decode_encode hwf⟩

/-- Settles O1: the rows of R81's table, run through the assembler and Decode. -/
theorem encodingExamplesAssembleAndDecode : Obligations.EncodingExamplesAssembleAndDecode := by
  refine ⟨?_, ?_, ?_, ?_, ?_, ?_, by decide, ⟨_, decode_noopImmediate (by decide) (by decide)⟩,
    ⟨_, decode_unknownOpcode (by decide) (by decide)⟩, ⟨_, decode_unknownOpcode (by decide) (by decide)⟩⟩ <;>
    decide

end Sys2Proof.Machine
end

section
/-! PROOFS. The execution cycle (40_execution_cycle.md): the count-down and commit forms of a step, what they do to
`cycle` and `runnable`, and the cycles a whole program takes. -/

namespace Sys2Proof.Machine

variable {s t : State}

/-! ### Count-down and commit exclude each other -/

theorem holding_instr {w : Nat} {i : Instr} (c : BitVec 1) (h : IntFits w (deltaOf i)) (hw : 1 ≤ w) :
    (Latch.holding w i c).instr = i := by
  cases i with
  | noop => rfl
  | addx delta => exact congrArg Instr.addx (narrowInt_of_fits hw h)

/-- The operand in hand fits the accumulator: a fetched one is encodable, a held one is in the latch's width. -/
theorem State.InRange.fits_inHand {i : Instr} (hs : s.InRange) (hi : s.inHand = .instr i) :
    IntFits s.params.accW (deltaOf i) := by
  cases i with
  | noop => exact IntFits_mono s.params.accW_ge (by decide : IntFits 24 0)
  | addx delta =>
    cases hv : s.latch.valid with
    | false => exact IntFits_mono s.params.accW_ge (fits_of_decode (inHand_of_empty s hv ▸ hi))
    | true =>
      rw [inHand_of_valid s hv, Decoded.instr.injEq] at hi
      cases ho : s.latch.op with
      | noop => simp [Latch.instr, ho] at hi
      | addx =>
        obtain rfl : s.latch.delta = delta := by simpa [Latch.instr, ho] using hi
        exact hs.delta

/-- The count-down form is `CountedDown` wherever the operand fits the latch. -/
theorem countedDown_countDown (s : State) {i : Instr} (c : BitVec 1) (h : IntFits s.params.accW (deltaOf i)) :
    CountedDown s ((s.countDown i c).writePixel s.acc).tick i (c - 1) where
  latch := by simp [holding_instr _ h (accW_pos s.params)]
  acc := by simp
  pc := by simp
  cycle := by simp
  fault := by simp
  writer := writerActs_finish rfl rfl
  program := ⟨by simp, by simp, by simp⟩

theorem CountedDown.not_committed {i : Instr} {c : BitVec 1} (h : CountedDown s t i c) : ¬Committed s t := by
  intro hcommit
  obtain ⟨hfull, -, -⟩ := h.latch
  obtain ⟨hempty, -⟩ := hcommit.latch
  exact Bool.false_ne_true (hempty.symm.trans hfull)

/-! ### `runnable` after a completed step (R111) -/

theorem CountedDown.runnable {i : Instr} {c : BitVec 1} (h : CountedDown s t i c) (h0 : s.fault = 0) :
    t.runnable = true := by
  obtain ⟨hv, -, -⟩ := h.latch
  exact runnable_iff.mpr ⟨by simp [State.halted, hv], h.fault.trans h0⟩

theorem Committed.runnable (h : Committed s t) (h0 : s.fault = 0) (hpc : s.pc + 1 < 2 ^ s.params.pcW) :
    t.runnable = decide (s.pc + 1 < s.progLen) := by
  obtain ⟨hv, -⟩ := h.latch
  have hp : t.pc = s.pc + 1 := h.pc.trans (Nat.mod_eq_of_lt hpc)
  simp [State.runnable, State.halted, State.faulted, hv, h.fault.trans h0, hp, h.program.progLen, ← decide_not]

theorem raise_runnable (s : State) (f : FaultCause) : (s.raise f).runnable = false := by
  rw [← Bool.not_eq_true]
  exact fun hr => raise_fault_ne_zero s f (fault_of_runnable hr)

/-! ### The cycle counter (R106) -/

/-- A step either faults and leaves `cycle`, or was allowed, ends with no fault and adds 1. -/
theorem State.StepsTo.cycle_cases (h : s.StepsTo t) :
    (t.fault ≠ 0 ∧ t.cycle = s.cycle) ∨
    (s.runnable = true ∧ t.fault = 0 ∧ t.cycle = (s.cycle + 1) % 2 ^ s.params.cycleW) := by
  cases h with
  | @raise f _ => exact .inl ⟨raise_fault_ne_zero s f, rfl⟩
  | countDown hr _ _ => exact .inr ⟨hr, by simpa using fault_of_runnable hr, by simp⟩
  | commit hr _ _ _ => exact .inr ⟨hr, by simpa using fault_of_runnable hr, by simp⟩

theorem State.StepsTo.cycle_of_clean (h : s.StepsTo t) (h0 : t.fault = 0) :
    s.runnable = true ∧ t.cycle = (s.cycle + 1) % 2 ^ s.params.cycleW := by
  obtain ⟨hne, -⟩ | ⟨hr, -, hc⟩ := h.cycle_cases
  · exact absurd h0 hne
  · exact ⟨hr, hc⟩

theorem State.StepsTo.cycle_of_faulted (h : s.StepsTo t) (hne : t.fault ≠ 0) : t.cycle = s.cycle := by
  obtain ⟨-, hc⟩ | ⟨-, h0, -⟩ := h.cycle_cases
  · exact hc
  · exact absurd h0 hne

theorem State.Inv.cycle_succ (hs : s.Inv) (h : s.StepsTo t) (h0 : t.fault = 0) : t.cycle = s.cycle + 1 := by
  obtain ⟨hr, hc⟩ := h.cycle_of_clean h0
  exact hc.trans (Nat.mod_eq_of_lt (hs.cycle_succ_lt hr))

/-! ### A block that is not runnable -/

theorem raise_contractViolation_twice (s : State) :
    (s.raise .contractViolation).raise .contractViolation = s.raise .contractViolation := by
  simp [State.raise, BitVec.or_assoc]

/-- Without reset, a block that is not runnable can only record CONTRACT_VIOLATION, at the first step edge. -/
theorem afterEdges_of_not_runnable (hr : s.runnable = false) (es : List (Bool × Bool))
    (hes : ∀ e ∈ es, e.1 = false) :
    s.afterEdges es = if (false, true) ∈ es then s.raise .contractViolation else s := by
  induction es generalizing s with
  | nil => rfl
  | cons e es ih =>
    obtain ⟨rst, stepIn⟩ := e
    obtain rfl : rst = false := hes _ List.mem_cons_self
    have hes' : ∀ e ∈ es, e.1 = false := fun e he => hes e (List.mem_cons_of_mem _ he)
    cases stepIn with
    | false =>
      have hidle : s.afterEdges ((false, false) :: es) = s.afterEdges es := rfl
      simpa [hidle] using ih hr hes'
    | true =>
      have hstep : s.afterEdges ((false, true) :: es) = (s.raise .contractViolation).afterEdges es :=
        congrArg (State.afterEdges · es) (after_of_not_runnable s hr)
      rw [hstep, ih (raise_runnable s _) hes', raise_contractViolation_twice, ite_self,
        if_pos List.mem_cons_self]

theorem not_runnable_of_halted (h : s.halted = true) : s.runnable = false := by
  simp [State.runnable, h]

/-! ### Runs of steps -/

/-- What every step keeps holds after any number of steps. -/
theorem afterN_keeps {P : State → Prop} (hstep : ∀ u v, State.StepsTo u v → P u → P v) (hs : P s) (k : Nat) :
    P (s.afterN k) := by
  induction k with
  | zero => exact hs
  | succ k ih => exact afterN_succ s k ▸ hstep _ _ (stepsTo_after _) ih

theorem State.Inv.afterN (hs : s.Inv) (k : Nat) : (s.afterN k).Inv :=
  afterN_keeps (fun _ _ hst hu => hst.inv hu) hs k

theorem State.InRange.applyReset_inv (hs : s.InRange) : s.applyReset.Inv :=
  resetFor_inv s.params s.freeDraws hs.imem hs.progLen

/-- While no fault is recorded, `cycle` counts the steps. -/
theorem State.Inv.afterN_cycle (hs : s.Inv) {k : Nat} (h0 : (s.afterN k).fault = 0) :
    (s.afterN k).cycle = s.cycle + k := by
  induction k with
  | zero => rfl
  | succ k ih =>
    have hst : (s.afterN k).StepsTo (s.afterN (k + 1)) := afterN_succ s k ▸ stepsTo_after _
    obtain ⟨hr, -⟩ := hst.cycle_of_clean h0
    rw [(hs.afterN k).cycle_succ hst h0, ih (fault_of_runnable hr), Nat.add_assoc]

/-- No run from reset is still runnable after `2 * PROG_LEN` steps (R153). -/
theorem not_runnable_at_stepBound (hs : s.InRange) :
    (s.applyReset.afterN s.stepBound).runnable = false := by
  rw [← Bool.not_eq_true]
  intro hr
  have hlt := (hs.applyReset_inv.afterN s.stepBound).cycle_lt hr
  rw [hs.applyReset_inv.afterN_cycle (fault_of_runnable hr)] at hlt
  simp [State.stepBound] at hlt

/-- A program that does not fault reaches Halted. -/
theorem State.faultFree.halts (hf : s.faultFree) (hs : s.InRange) :
    ∃ k, (s.applyReset.afterN k).fault = 0 ∧ (s.applyReset.afterN k).halted = true := by
  obtain ⟨k, -, hrun, -, hend⟩ := drive_ends s.applyReset (withinBudget none) s.stepBound
  have h0 : (s.applyReset.afterN k).fault = 0 := hrun ▸ hf
  have hr : (s.applyReset.afterN k).runnable = false := by
    rcases hend with rfl | hr | hbudget
    · exact not_runnable_at_stepBound hs
    · exact hr
    · exact absurd hbudget Bool.true_eq_false.mp
  exact ⟨k, h0, by simpa [State.runnable, State.faulted, h0] using hr⟩

/-! ### The cycles a program takes (R107) -/

/-- The words of the instructions committed so far: those below `pc` (R24). -/
def State.retiredWords (s : State) : List Word := (List.range s.pc).map s.programWord

/-- Every word below `pc` is a NOOP or an ADDX, and `cycle` counts one cycle for each NOOP, two for each ADDX and one
more for an ADDX in flight (R107). -/
structure State.Paced (s : State) : Prop where
  legal : nNoop s.retiredWords + nAddx s.retiredWords = s.pc
  cycle : s.cycle = nNoop s.retiredWords + 2 * nAddx s.retiredWords + s.inFlight

theorem SameProgram.programWord (h : SameProgram s t) : t.programWord = s.programWord := by
  funext k
  simp only [State.programWord, Memory.readWord, h.progLen, h.bytes]

theorem SameProgram.retiredWords (h : SameProgram s t) (hp : t.pc = s.pc) : t.retiredWords = s.retiredWords := by
  rw [State.retiredWords, State.retiredWords, hp, h.programWord]

theorem SameProgram.retiredWords_succ (h : SameProgram s t) (hp : t.pc = s.pc + 1) :
    t.retiredWords = s.retiredWords ++ [s.programWord s.pc] := by
  rw [State.retiredWords, State.retiredWords, hp, h.programWord, List.range_succ, List.map_append,
    List.map_singleton]

/-- One more word is one more NOOP or one more ADDX; the latency tells which (R72). -/
theorem counts_concat {w : Word} {i : Instr} (ws : List Word) (h : decode w = .instr i) :
    nNoop (ws ++ [w]) + nAddx (ws ++ [w]) = nNoop ws + nAddx ws + 1 ∧
    nAddx (ws ++ [w]) = nAddx ws + (latency (opOf i)).toNat := by
  cases i <;> simp [nNoop, nAddx, isAddx, h, latency, opOf] <;> omega

/-- In a run the instruction in hand is the one at `pc`, fetched or held (R25). -/
theorem State.Inv.fetch_eq {i : Instr} (hs : s.Inv) (hi : s.inHand = .instr i) : s.fetch = .instr i := by
  cases hv : s.latch.valid with
  | false => exact inHand_of_empty s hv ▸ hi
  | true => exact (hs.latch_pc hv).2.trans (inHand_of_valid s hv ▸ hi)

/-- In a run, an instruction that commits has been in flight for as many cycles as its latency. -/
theorem State.Inv.inFlight_of_commit {i : Instr} (hs : s.Inv) (hi : s.inHand = .instr i)
    (hc : s.counter i = 0) : s.inFlight = (latency (opOf i)).toNat := by
  cases hv : s.latch.valid with
  | false =>
    have hl : latency (opOf i) = 0 := by simpa [State.counter, hv] using hc
    simp [State.inFlight, hv, hl]
  | true =>
    obtain ⟨hop, -⟩ := hs.latch_addx
    have hi' : s.latch.instr = i := by simpa [inHand_of_valid s hv] using hi
    obtain rfl : .addx s.latch.delta = i := by simpa [Latch.instr, hop hv] using hi'
    simp [State.inFlight, hv, opOf, latency]

theorem State.Paced.countDown {i : Instr} {c : BitVec 1} (hp : s.Paced) (hs : s.Inv) (hr : s.runnable = true)
    (hv : s.latch.valid = false) (h : CountedDown s t i c) : t.Paced := by
  have hw := h.program.retiredWords h.pc
  have hcyc : t.cycle = s.cycle + 1 := h.cycle.trans (Nat.mod_eq_of_lt (hs.cycle_succ_lt hr))
  have hs0 : s.inFlight = 0 := by simp [State.inFlight, hv]
  have ht1 : t.inFlight = 1 := by simp [State.inFlight, h.latch.1]
  constructor
  · rw [hw, h.pc, hp.legal]
  · rw [hw, hcyc, hp.cycle, hs0, ht1]

theorem State.Paced.commit {i : Instr} (hp : s.Paced) (hs : s.Inv) (hr : s.runnable = true)
    (hi : s.inHand = .instr i) (hc : s.counter i = 0) (h : Committed s t) : t.Paced := by
  have hpc : t.pc = s.pc + 1 := h.pc.trans (Nat.mod_eq_of_lt (hs.pc_succ_lt hr))
  have hcyc : t.cycle = s.cycle + 1 := h.cycle.trans (Nat.mod_eq_of_lt (hs.cycle_succ_lt hr))
  have ht0 : t.inFlight = 0 := by simp [State.inFlight, h.latch.1]
  obtain ⟨hcount, haddx⟩ := counts_concat s.retiredWords (hs.fetch_eq hi)
  have hlegal := hp.legal
  have hcyc' := hp.cycle
  have hflight := hs.inFlight_of_commit hi hc
  constructor <;> rw [h.program.retiredWords_succ hpc] <;> omega

theorem State.Paced.step (hp : s.Paced) (hs : s.Inv) (h : s.StepsTo t) : t.Paced := by
  cases h with
  | raise _ => exact ⟨hp.legal, hp.cycle⟩
  | countDown hr hi hc =>
    obtain ⟨hv, -⟩ := fetched_of_countDown hs.latch_addx.2 hc
    exact hp.countDown hs hr hv (countedDown_countDown s _ (hs.range.fits_inHand hi))
  | commit hr hi hc _ => exact hp.commit hs hr hi hc (committed_commit s _)

theorem applyReset_paced (s : State) : s.applyReset.Paced := ⟨rfl, rfl⟩

theorem afterN_paced (hs : s.InRange) (k : Nat) : (s.applyReset.afterN k).Paced := by
  have h := afterN_keeps (P := fun u => u.Inv ∧ u.Paced) (fun _ _ hst ⟨hi, hp⟩ => ⟨hst.inv hi, hp.step hi hst⟩)
    ⟨hs.applyReset_inv, applyReset_paced s⟩ k
  exact h.2

/-! ### The obligations -/

/-- Settles O13: the instruction in hand is the word at `pc` decoded, or the one held. -/
theorem stepRunsTheInstructionInHand : Obligations.StepRunsTheInstructionInHand := by
  refine ⟨fun s i hr hv hd => ?_, fun s i hr hv hl => ?_⟩
  · exact step_of_instr s hr ((inHand_of_empty s hv).trans ((fetch_of_runnable hr hv).trans hd))
  · exact step_of_instr s hr ((inHand_of_valid s hv).trans (congrArg Decoded.instr hl))

/-- Settles O21: the first step has the count-down form, the second the commit form. -/
theorem addxTakesTwoSteps : Obligations.AddxTakesTwoSteps := by
  intro s delta hs hr hv hd hf
  have h0 := fault_of_runnable hr
  have hi : s.inHand = .instr (.addx delta) :=
    (inHand_of_empty s hv).trans ((fetch_of_runnable hr hv).trans hd)
  have hc : s.counter (.addx delta) = 1 := by simp [State.counter, hv, opOf, latency]
  have hst : s.StepsTo _ := .countDown hr hi (by simp [hc])
  have hdown := countedDown_countDown s (s.counter (.addx delta)) (hs.fits_inHand hi)
  generalize ((s.countDown (.addx delta) (s.counter (.addx delta))).writePixel s.acc).tick = t at hst hdown
  obtain ⟨htv, hti, htc⟩ := hdown.latch
  have htcnt : t.latch.cnt = 0 := by simpa [hc] using htc
  have htr := hdown.runnable h0
  have htf : IntFits t.params.accW (t.acc + delta) := by rwa [hdown.program.params, hdown.acc]
  have hst' : t.StepsTo _ := .commit (i := .addx delta) htr
    ((inHand_of_valid t htv).trans (congrArg _ hti)) (by simp [State.counter, htv, htcnt]) (.inr htf)
  have hcommit := committed_commit t (t.acc + delta)
  have hpc : t.pc + 1 < 2 ^ t.params.pcW := by
    rw [hdown.pc, hdown.program.params]
    exact lt_of_le_of_lt (pc_lt_of_runnable hr hv) hs.progLen
  obtain ⟨huv, huc⟩ := hcommit.latch
  refine ⟨t, _, step_iff_stepsTo.mpr hst, step_iff_stepsTo.mpr hst',
    ⟨hdown.pc, htv, htcnt, hdown.acc, htr⟩, ?_, huv, huc, ?_, ?_⟩
  · rw [← hdown.pc]
    exact hcommit.pc.trans (Nat.mod_eq_of_lt hpc)
  · simp [deltaOf, hdown.acc]
  · rw [← hdown.pc, ← hdown.program.progLen]
    exact hcommit.runnable (fault_of_runnable htr) hpc

/-- Settles O24: by the edge's case, then by whether its step faults (`State.StepsTo.cycle_cases`). -/
theorem cycleCounterRule : Obligations.CycleCounterRule := by
  intro rst stepIn s t h
  rcases clockEdge_cases h with ⟨rfl, rfl⟩ | ⟨rfl, rfl, hst⟩ | ⟨rfl, rfl, rfl⟩
  · exact ⟨fun _ => rfl, nofun, nofun, nofun⟩
  · exact ⟨nofun, fun _ _ h0 => ⟨(hst.cycle_of_clean h0).2, fun hs => hs.cycle_succ hst h0⟩,
      fun _ _ => hst.cycle_of_faulted, nofun⟩
  · exact ⟨nofun, nofun, nofun, fun _ _ => rfl⟩

/-- Settles O25: a step without a fault has the count-down or the commit form, by the counter after fetch. -/
theorem countDownOrCommit : Obligations.CountDownOrCommit := by
  intro s t hs h h0
  cases step_iff_stepsTo.mp h with
  | @raise f _ => exact absurd h0 (raise_fault_ne_zero s f)
  | @countDown i _ hi hc =>
    have hdown := countedDown_countDown s (s.counter i) (hs.fits_inHand hi)
    exact ⟨i, hi, .inl ⟨hc, hdown, hdown.not_committed⟩⟩
  | @commit i _ hi hc _ =>
    have hcommit := committed_commit s (s.acc + deltaOf i)
    exact ⟨i, hi, .inr ⟨hc, hcommit, fun _ _ hdown => hdown.not_committed hcommit⟩⟩

/-- Settles O26: by the form of the step; only the commit of the last instruction moves `pc` to PROG_LEN. -/
theorem runnableFallsAtTheEnd : Obligations.RunnableFallsAtTheEnd := by
  intro s t hs hr h
  have h0 := fault_of_runnable hr
  cases step_iff_stepsTo.mp h with
  | @raise f _ => exact iff_of_true (raise_runnable s f) (.inl (raise_fault_ne_zero s f))
  | @countDown i _ hi _ =>
    have hdown := countedDown_countDown s (s.counter i) (hs.range.fits_inHand hi)
    refine iff_of_false (by simp [hdown.runnable h0]) ?_
    rintro (hne | ⟨hcommit, -⟩)
    · exact hne (hdown.fault.trans h0)
    · exact hdown.not_committed hcommit
  | @commit i _ _ _ _ =>
    have hcommit := committed_commit s (s.acc + deltaOf i)
    have hlt := hs.pc_lt hr
    have hlast : ¬s.pc + 1 < s.progLen ↔ s.pc = s.progLen - 1 := by omega
    rw [hcommit.runnable h0 (hs.pc_succ_lt hr), decide_eq_false_iff_not, hlast]
    simp only [hcommit, hcommit.fault.trans h0, ne_eq, not_true_eq_false, false_or, true_and]

/-- Settles O38: a Halted block is not runnable, so its edges can only record CONTRACT_VIOLATION. -/
theorem onlyResetLeavesHalted : Obligations.OnlyResetLeavesHalted := by
  refine ⟨fun s hh => ⟨not_runnable_of_halted hh, fun es hes => ?_⟩, fun _ _ _ => ⟨rfl, rfl⟩⟩
  rw [afterEdges_of_not_runnable (not_runnable_of_halted hh) es hes]
  split
  · exact ⟨hh, rfl⟩
  · exact ⟨hh, rfl⟩

/-- Settles O46: where the run halts `pc` is PROG_LEN, so the pace invariant there speaks of the whole program. -/
theorem cycleCountOfAProgram : Obligations.CycleCountOfAProgram := by
  intro s hs hf
  obtain ⟨k, h0, hh⟩ := hf.halts hs
  have hinv := hs.applyReset_inv.afterN k
  have hpaced := afterN_paced hs k
  obtain ⟨hv, hge⟩ : (s.applyReset.afterN k).latch.valid = false ∧
      s.progLen ≤ (s.applyReset.afterN k).pc := by
    simpa [State.halted] using hh
  have hpc : (s.applyReset.afterN k).pc = s.progLen := le_antisymm (by simpa using hinv.pc_le) hge
  have hwords : (s.applyReset.afterN k).retiredWords = s.program := by
    have hsame : SameProgram s (s.applyReset.afterN k) := ⟨by simp, by simp, by simp⟩
    rw [State.retiredWords, hpc, hsame.programWord, State.program]
  have hcyc : (s.applyReset.afterN k).cycle = s.cycleCount := by
    simpa [hwords, State.inFlight, hv, State.cycleCount] using hpaced.cycle
  obtain rfl : k = s.cycleCount := by
    rw [← hcyc, hs.applyReset_inv.afterN_cycle h0, applyReset_cycle, Nat.zero_add]
  exact ⟨fun _ => runnable_of_afterN_fault _ h0, hh, h0, hcyc, hpc, by simpa [hwords, hpc] using hpaced.legal⟩

end Sys2Proof.Machine
end

section
/-! PROOFS. The two instructions (41_accumulator_ops.md): the counter each sees, what `exec` can answer in any state,
and a program of NOOPs. -/

namespace Sys2Proof.Machine

variable {s t : State}

/-! ### The counter after fetch (R103) -/

theorem counter_of_empty (hv : s.latch.valid = false) (i : Instr) : s.counter i = latency (opOf i) := by
  simp [State.counter, hv]

theorem counter_of_valid (hv : s.latch.valid = true) (i : Instr) : s.counter i = s.latch.cnt := by
  simp [State.counter, hv]

/-- NOOP commits unless a full latch still counts down: its latency is 0 (R120). -/
theorem counter_noop_eq_zero_iff : s.counter .noop = 0 ↔ s.latch.valid = false ∨ s.latch.cnt = 0 := by
  cases hv : s.latch.valid with
  | false => simp [counter_of_empty hv, opOf, latency]
  | true => simp [counter_of_valid hv]

/-- ADDX commits only from a full latch: its latency is 1 (R121). -/
theorem counter_addx_eq_zero_iff {delta : Int} :
    s.counter (.addx delta) = 0 ↔ s.latch.valid = true ∧ s.latch.cnt = 0 := by
  cases hv : s.latch.valid with
  | false => simp [counter_of_empty hv, opOf, latency]
  | true => simp [counter_of_valid hv]

/-! ### What `exec` answers, in any state -/

theorem exec_of_countDown {i : Instr} (hc : s.counter i ≠ 0) :
    exec i s = .next ((s.countDown i (s.counter i)).writePixel s.acc).tick := by
  rw [exec_eq_cycleWith, cycleWith_countDown s _ hc]

theorem exec_of_commit {i : Instr} (hc : s.counter i = 0)
    (hf : i = .noop ∨ IntFits s.params.accW (s.acc + deltaOf i)) :
    exec i s = .next (({ s with acc := s.acc + deltaOf i } : State).retire.writePixel s.acc).tick := by
  rw [exec_eq_cycleWith, cycleWith_commit s hc (effectOf_fits hf)]

/-- Where `exec` can commit, it answers a committed state whose `acc` has the operand added. -/
theorem exec_commits {i : Instr} (hc : s.counter i = 0)
    (hf : i = .noop ∨ IntFits s.params.accW (s.acc + deltaOf i)) :
    ∃ t, exec i s = .next t ∧ t.acc = s.acc + deltaOf i ∧ Committed s t :=
  ⟨_, exec_of_commit hc hf, by simp, committed_commit s _⟩

/-- The frame of a completed step (R100): all that a count-down and a commit both leave, whatever the operand. -/
structure Completed (s t : State) : Prop where
  fault : t.fault = s.fault
  writer : WriterActs s t
  program : SameProgram s t

theorem Committed.completed (h : Committed s t) : Completed s t := ⟨h.fault, h.writer, h.program⟩

/-- Unlike `countedDown_countDown` this asks nothing of the operand: only the latch depends on whether it fits. -/
theorem completed_countDown (s : State) (i : Instr) (c : BitVec 1) :
    Completed s ((s.countDown i c).writePixel s.acc).tick where
  fault := by simp
  writer := writerActs_finish rfl rfl
  program := ⟨by simp, by simp, by simp⟩

/-- What `exec` can answer: a count-down, a commit, or, for ADDX only, ACC_OVERFLOW. -/
theorem exec_cases {i : Instr} (h : exec i s = .next t) :
    (t.acc = s.acc ∧ Completed s t) ∨
    (s.counter i = 0 ∧ t.acc = s.acc + deltaOf i ∧ Committed s t) ∨
    (i ≠ .noop ∧ t = s.raise .accOverflow) := by
  have answers : ∀ {u}, exec i s = .next u → t = u := fun hu => Host.Outcome.next.inj (h.symm.trans hu)
  by_cases hc : s.counter i = 0
  · by_cases hf : i = .noop ∨ IntFits s.params.accW (s.acc + deltaOf i)
    · obtain ⟨u, hu, hacc, hcommit⟩ := exec_commits hc hf
      exact answers hu ▸ .inr (.inl ⟨hc, hacc, hcommit⟩)
    · cases i with
      | noop => exact absurd (.inl rfl) hf
      | addx delta =>
        obtain ⟨-, hover⟩ := not_or.mp hf
        have hraise := cycleWith_raised s hc (effectAddx_overflows s hover)
        exact .inr (.inr ⟨Instr.noConfusion, answers (congrArg _ hraise)⟩)
  · have hu := answers (exec_of_countDown hc)
    exact .inl ⟨by simp [hu], hu ▸ completed_countDown s i _⟩

/-! ### A program of NOOPs -/

/-- The engine `k` NOOPs after reset (R120): Idle or Halted at index `k`, with the accumulator still 1. -/
structure State.NoopsDone (s : State) (k : Nat) : Prop where
  acc : s.acc = 1
  pc : s.pc = k
  empty : s.latch.valid = false
  fault : s.fault = 0

theorem applyReset_noopsDone (s : State) : s.applyReset.NoopsDone 0 := ⟨rfl, rfl, rfl, rfl⟩

theorem decode_zero : decode 0 = .instr .noop := decode_noop (by decide) (by decide)

theorem State.NoopsDone.halted_iff {k : Nat} (h : s.NoopsDone k) : s.halted = true ↔ s.progLen ≤ k := by
  simp [State.halted, h.empty, h.pc]

/-- A step at an all-zero word commits one NOOP more. -/
theorem State.NoopsDone.after {k : Nat} (h : s.NoopsDone k) (hs : s.InRange) (hk : k < s.progLen)
    (hw : s.programWord k = 0) : s.after.NoopsDone (k + 1) := by
  have hr : s.runnable = true :=
    runnable_iff.mpr ⟨Bool.eq_false_iff.mpr (h.halted_iff.not.mpr (by omega)), h.fault⟩
  have hi : s.inHand = .instr .noop := by
    rw [inHand_of_empty s h.empty, State.fetch, h.pc, hw, decode_zero]
  obtain ⟨t, ht, hacc, hcommit⟩ := exec_commits (counter_noop_eq_zero_iff.mpr (.inl h.empty)) (.inl rfl)
  have hpc : k + 1 < 2 ^ s.params.pcW := lt_of_le_of_lt hk hs.progLen
  rw [after_of_exec s hr hi ht]
  exact {
    acc := by rw [hacc, h.acc, deltaOf, add_zero]
    pc := by rw [hcommit.pc, h.pc, Nat.mod_eq_of_lt hpc]
    empty := hcommit.latch.1
    fault := hcommit.fault.trans h.fault }

theorem afterN_noopsDone (hs : s.InRange) (hw : ∀ k, k < s.progLen → s.programWord k = 0) {k : Nat}
    (hk : k ≤ s.progLen) : (s.applyReset.afterN k).NoopsDone k := by
  induction k with
  | zero => exact applyReset_noopsDone s
  | succ k ih =>
    have hword : (s.applyReset.afterN k).programWord k = s.programWord k :=
      programWord_congr (by simp) (by simp) k
    rw [afterN_succ]
    exact (ih (by omega)).after (hs.applyReset_inv.afterN k).range (by simpa using hk) (hword.trans (hw k hk))

/-! ### The obligations -/

/-- Settles O15: NOOP's counter is 0 there, so `exec` commits it, with operand 0. -/
theorem noopCommitsInOneStep : Obligations.NoopCommitsInOneStep := by
  intro s h
  obtain ⟨t, ht, hacc, hcommit⟩ := exec_commits (counter_noop_eq_zero_iff.mpr h) (.inl rfl)
  exact ⟨t, ht, by simpa [deltaOf] using hacc, hcommit⟩

/-- Settles O16: NOOP counts down or commits, and its operand is 0. -/
theorem noopFrame : Obligations.NoopFrame := by
  intro s t h
  obtain ⟨hacc, hdone⟩ : t.acc = s.acc ∧ Completed s t := by
    rcases exec_cases h with hdown | ⟨-, hacc, hcommit⟩ | ⟨hne, -⟩
    · exact hdown
    · exact ⟨by simpa [deltaOf] using hacc, hcommit.completed⟩
    · exact absurd rfl hne
  exact ⟨hacc, hdone.fault, hdone.program, hdone.writer.others⟩

/-- Settles O17, by induction on the steps (`afterN_noopsDone`); with no fault `cycle` counts them. -/
theorem noopProgramHaltsAtItsLength : Obligations.NoopProgramHaltsAtItsLength := by
  intro s hs hw k hk
  have h := afterN_noopsDone hs hw hk
  have hcyc : (s.applyReset.afterN k).cycle = k := by
    simpa using hs.applyReset_inv.afterN_cycle h.fault
  refine ⟨h.acc, h.pc, hcyc, h.empty, h.fault, ?_⟩
  rw [h.halted_iff, afterN_progLen, applyReset_progLen]
  exact ⟨le_antisymm hk, Eq.ge⟩

/-- Settles O18: the fetch loads counter 1, which counts down to 0, and the encodable delta fits the latch. -/
theorem addxFirstStepLatches : Obligations.AddxFirstStepLatches := by
  intro delta s hwf hv
  have hc : s.counter (.addx delta) = 1 := counter_of_empty hv _
  have hdown := countedDown_countDown s (i := .addx delta) 1 (IntFits_of_wellFormed s.params hwf)
  exact ⟨_, exec_of_countDown (by simp [hc]), hc ▸ hdown⟩

/-- Settles O19: the held counter is 0 and the sum fits, so `exec` commits. -/
theorem addxSecondStepCommits : Obligations.AddxSecondStepCommits :=
  fun _ _ hv hcnt hf => exec_commits (counter_addx_eq_zero_iff.mpr ⟨hv, hcnt⟩) (.inr hf)

/-- Settles O20: by what `exec` can answer; a commit of ADDX is one of a full latch. -/
theorem addxFrame : Obligations.AddxFrame := by
  intro delta s t h
  rcases exec_cases h with ⟨hacc, hdone⟩ | ⟨hc, hacc, hcommit⟩ | ⟨-, rfl⟩
  · exact ⟨hdone.program, hdone.writer.others, .inl hacc, .inl hdone.fault⟩
  · obtain ⟨hv, hcnt⟩ := counter_addx_eq_zero_iff.mp hc
    exact ⟨hcommit.program, hcommit.writer.others, .inr ⟨hacc, hv, hcnt, hcommit⟩, .inl hcommit.fault⟩
  · exact ⟨⟨rfl, fun _ => rfl, rfl⟩, fun _ _ => rfl, .inl rfl, .inr rfl⟩

end Sys2Proof.Machine
end

section
/-! PROOFS. The display buffer and the pixel writer (45_display_writer.md): the pixel function, the writer in one step
and in a run from reset, and the full raster. -/

namespace Sys2Proof.Machine

variable {s t : State}

/-! ### The pixel function (R132) -/

theorem lit_iff (a : Int) (col : Nat) :
    lit a col = true ↔ (col : Int) = a - 1 ∨ (col : Int) = a ∨ (col : Int) = a + 1 := by
  rw [lit, decide_eq_true_eq]
  omega

/-- On a row's right edge: with the accumulator one past the last column, only that column is lit (R138). -/
theorem lit_right_edge {col : Nat} (h : col < Config.W) : lit 40 col = true ↔ col = 39 := by
  rw [lit_iff]
  simp only [Config.W] at h
  omega

/-! ### Cells read from the buffer (R34, R56) -/

theorem cell_of_lt {i : Nat} (h : i < Config.NCELL) : s.cell i = s.disp[i] := dif_pos h

theorem cell_of_ge {i : Nat} (h : Config.NCELL ≤ i) : s.cell i = false := dif_neg (Nat.not_lt.mpr h)

theorem rasterFull_iff : s.rasterFull = true ↔ s.wrIdx.toNat = Config.NCELL := decide_eq_true_iff

/-! ### The writer in one step (R133) -/

/-- A step either faults and draws nothing, or was allowed, ends with no fault and makes the writer act once. -/
theorem State.StepsTo.writer_cases (h : s.StepsTo t) :
    (t.fault ≠ 0 ∧ t.disp = s.disp ∧ t.wrIdx = s.wrIdx) ∨ (s.fault = 0 ∧ t.fault = 0 ∧ WriterActs s t) := by
  cases h with
  | @raise f _ => exact .inl ⟨raise_fault_ne_zero s f, rfl, rfl⟩
  | @countDown i hr _ _ =>
    have h0 := fault_of_runnable hr
    have hdone := completed_countDown s i (s.counter i)
    exact .inr ⟨h0, hdone.fault.trans h0, hdone.writer⟩
  | @commit i hr _ _ _ =>
    have h0 := fault_of_runnable hr
    have hcommit := committed_commit s (s.acc + deltaOf i)
    exact .inr ⟨h0, hcommit.fault.trans h0, hcommit.writer⟩

theorem State.StepsTo.writerActs_of_clean (h : s.StepsTo t) (h0 : t.fault = 0) : s.fault = 0 ∧ WriterActs s t := by
  obtain ⟨hne, -⟩ | ⟨hs, -, hw⟩ := h.writer_cases
  · exact absurd h0 hne
  · exact ⟨hs, hw⟩

theorem State.StepsTo.display_of_faulted (h : s.StepsTo t) (hne : t.fault ≠ 0) :
    t.disp = s.disp ∧ t.wrIdx = s.wrIdx := by
  obtain ⟨-, hkept⟩ | ⟨-, h0, -⟩ := h.writer_cases
  · exact hkept
  · exact absurd h0 hne

/-- With the raster full, no step draws (R137). -/
theorem State.StepsTo.display_of_full (h : s.StepsTo t) (hfull : Config.NCELL ≤ s.wrIdx.toNat) :
    t.disp = s.disp ∧ t.wrIdx = s.wrIdx := by
  obtain ⟨-, hkept⟩ | ⟨-, -, hw⟩ := h.writer_cases
  · exact hkept
  · exact (hw.full hfull).symm

/-! ### The writer in a run from reset (R134) -/

/-- The display after the writer acted `k` times on a blank raster, when the accumulator before its act `i + 1` was
`acc i`. -/
structure State.Drawn (acc : Nat → Int) (k : Nat) (s : State) : Prop where
  wrIdx : s.wrIdx.toNat = min k Config.NCELL
  drawn : ∀ i, i < min k Config.NCELL → s.cell i = lit (acc i) (i % Config.W)
  blank : ∀ i, min k Config.NCELL ≤ i → s.cell i = false

theorem applyReset_drawn (s : State) (acc : Nat → Int) : s.applyReset.Drawn acc 0 where
  wrIdx := rfl
  drawn := by simp
  blank := fun i _ => applyReset_cell s i

/-- One more act of the writer draws the cell at `wr_idx`, if the raster is not full. -/
theorem State.Drawn.succ {acc : Nat → Int} {k : Nat} (hs : s.Drawn acc k) (h : WriterActs s t)
    (ha : s.acc = acc k) : t.Drawn acc (k + 1) := by
  have hidx := hs.wrIdx
  by_cases hk : k < Config.NCELL
  · have hmin : min k Config.NCELL = k := by omega
    have hmin' : min (k + 1) Config.NCELL = k + 1 := by omega
    rw [hmin] at hidx
    constructor <;> rw [hmin']
    case wrIdx => rw [h.index (hidx ▸ hk), hidx]
    case drawn =>
      intro i hi
      rcases Nat.lt_succ_iff_lt_or_eq.mp hi with hlt | rfl
      · rw [h.others i (by omega), hs.drawn i (by omega)]
      · have hwritten := h.written (hidx ▸ hk)
        rwa [hidx, ha] at hwritten
    case blank => exact fun i hi => (h.others i (by omega)).trans (hs.blank i (by omega))
  · have hmin : min k Config.NCELL = min (k + 1) Config.NCELL := by omega
    obtain ⟨hw, hd⟩ := h.full (by omega)
    have hcell : ∀ i, t.cell i = s.cell i := fun i => by rw [State.cell, State.cell, hd]
    constructor <;> rw [← hmin]
    case wrIdx => rw [hw, hidx]
    case drawn => exact fun i hi => (hcell i).trans (hs.drawn i hi)
    case blank => exact fun i hi => (hcell i).trans (hs.blank i hi)

theorem afterN_drawn (s : State) {k : Nat} (h0 : (s.applyReset.afterN k).fault = 0) :
    (s.applyReset.afterN k).Drawn (fun i => (s.applyReset.afterN i).acc) k := by
  induction k with
  | zero => exact applyReset_drawn s _
  | succ k ih =>
    have hst : (s.applyReset.afterN k).StepsTo (s.applyReset.afterN (k + 1)) :=
      afterN_succ s.applyReset k ▸ stepsTo_after _
    obtain ⟨hk, hw⟩ := hst.writerActs_of_clean h0
    exact (ih hk).succ hw rfl

/-! ### Edges without reset -/

/-- Without reset, a sequence of edges is as many steps as it requests. -/
theorem afterEdges_eq_afterN (es : List (Bool × Bool)) (hes : ∀ e ∈ es, e.1 = false) :
    s.afterEdges es = s.afterN (es.countP Prod.snd) := by
  induction es generalizing s with
  | nil => rfl
  | cons e es ih =>
    obtain ⟨rst, stepIn⟩ := e
    obtain rfl : rst = false := hes _ List.mem_cons_self
    have hes' : ∀ e ∈ es, e.1 = false := fun e he => hes e (List.mem_cons_of_mem _ he)
    cases stepIn with
    | false => exact ih hes'
    | true =>
      rw [List.countP_cons_of_pos rfl]
      exact ih hes'

/-! ### The obligations -/

/-- Settles O40: a step faults and draws nothing, or the writer acts once (`State.StepsTo.writer_cases`). -/
theorem writerActsInEveryStep : Obligations.WriterActsInEveryStep := by
  intro s t h
  have hst := step_iff_stepsTo.mp h
  exact ⟨fun h0 => (hst.writerActs_of_clean h0).2, hst.display_of_faulted⟩

/-- Settles O41, by induction on the steps (`afterN_drawn`). -/
theorem displayAfterKSteps : Obligations.DisplayAfterKSteps := by
  intro s k h0
  obtain ⟨hidx, hdrawn, hblank⟩ := afterN_drawn s h0
  exact ⟨hidx, hdrawn, hblank⟩

/-- Settles O42: no step draws on a full raster, so none of those the edges request does. -/
theorem fullRasterStaysAndIsRead : Obligations.FullRasterStaysAndIsRead := by
  refine ⟨fun _ => rasterFull_iff, fun s es hfull hes => ?_, fun _ _ => ⟨cell_of_lt, cell_of_ge⟩⟩
  have hstep : ∀ u v, State.StepsTo u v → u.disp = s.disp ∧ u.rasterFull = true →
      v.disp = s.disp ∧ v.rasterFull = true := by
    rintro u v hst ⟨hdisp, hu⟩
    obtain ⟨hd, hw⟩ := hst.display_of_full (rasterFull_iff.mp hu).ge
    exact ⟨hd.trans hdisp, by rwa [State.rasterFull, hw]⟩
  rw [afterEdges_eq_afterN es hes]
  exact afterN_keeps hstep ⟨rfl, hfull⟩ _

/-- Settles O39: the columns by `lit_iff`; the table's values by evaluation. -/
theorem pixelFunction : Obligations.PixelFunction :=
  ⟨lit_iff, by decide, by decide, by decide, by decide, by decide, by decide, by decide, by decide, by decide,
    by decide, by decide, by decide, fun _ => lit_right_edge⟩

end Sys2Proof.Machine
end

section
/-! PROOFS. The rendered grid (46_host_driver.md R160): with one LF more at its end it is six lines of 41 characters. -/

namespace Sys2Proof.Machine

variable {α : Type}

/-! ### Lists of lines -/

/-- Joined with a separator and closed by one more, each entry is followed by a separator. -/
theorem intercalate_append_sep (sep : List α) {rows : List (List α)} (h : rows ≠ []) :
    sep.intercalate rows ++ sep = (rows.map (· ++ sep)).flatten := by
  induction rows with
  | nil => exact absurd rfl h
  | cons row rows ih =>
    cases rows with
    | nil => simp
    | cons row' rows =>
      rw [List.intercalate_cons_cons, List.append_assoc, ih (List.cons_ne_nil _ _),
        List.map_cons (l := _ :: _), List.flatten_cons]

/-- In a text of lines of `n` characters, character `n * r + c` is character `c` of line `r`. -/
theorem getElem?_flatten_of_length {n r c : Nat} {rows : List (List α)} {row : List α}
    (hn : ∀ l ∈ rows, l.length = n) (hr : rows[r]? = some row) (hc : c < n) :
    rows.flatten[n * r + c]? = row[c]? := by
  induction rows generalizing r with
  | nil => simp at hr
  | cons l rows ih =>
    obtain ⟨hl, hn'⟩ := List.forall_mem_cons.mp hn
    rw [List.flatten_cons]
    cases r with
    | zero =>
      obtain rfl : l = row := by simpa using hr
      rw [Nat.mul_zero, Nat.zero_add, List.getElem?_append_left (hl ▸ hc)]
    | succ r =>
      have hskip : n * (r + 1) + c - l.length = n * r + c := by rw [hl, Nat.mul_succ]; omega
      rw [List.getElem?_append_right (by rw [hl, Nat.mul_succ]; omega), hskip, ih hn' (by simpa using hr)]

/-! ### Rows -/

variable (d : Vector Bool Config.NCELL)

theorem length_renderRow {r : Nat} (hr : r < Config.H) : (renderRow d r).length = Config.W := by
  have hcells : Config.W * r + Config.W ≤ Config.NCELL := by
    simp only [Config.H, Config.W, Config.NCELL] at *; omega
  rw [renderRow, List.length_map, List.length_take, List.length_drop, Vector.length_toList]
  omega

theorem getElem?_renderRow {r c : Nat} (hc : c < Config.W) (h : Config.W * r + c < Config.NCELL) :
    (renderRow d r)[c]? = some (cellChar d[Config.W * r + c]) := by
  simp [renderRow, hc, h]

/-! ### The grid -/

/-- The lines of the grid: the rows, each closed by one LF. -/
def renderLines : List (List Char) := (List.range Config.H).map fun r => renderRow d r ++ ['\n']

theorem render_append_newline : render d ++ ['\n'] = (renderLines d).flatten := by
  have hne : (List.range Config.H).map (renderRow d) ≠ [] := by simp
  rw [render, intercalate_append_sep _ hne, List.map_map]
  rfl

theorem length_of_mem_renderLines : ∀ l ∈ renderLines d, l.length = Config.W + 1 := by
  intro l hl
  obtain ⟨r, hr, rfl⟩ := List.mem_map.mp hl
  rw [List.length_append, length_renderRow d (List.mem_range.mp hr), List.length_singleton]

theorem length_render : (render d).length = 245 := by
  have hflat : (renderLines d).flatten.length = 246 := by
    rw [List.length_flatten, List.map_congr_left (length_of_mem_renderLines d)]
    simp [renderLines, Function.comp_def, Config.W, Config.H]
  rw [← render_append_newline, List.length_append, List.length_singleton] at hflat
  exact Nat.succ.inj hflat

/-- Of a line's 41 characters the first 40 are its row's, the last is the LF; the last line's LF is left out. -/
theorem getElem?_render {r c : Nat} (hr : r < 6) (hc : c < 41) (hlast : 41 * r + c < 245) :
    (render d)[41 * r + c]? = (renderRow d r ++ ['\n'])[c]? := by
  have hline : (renderLines d)[r]? = some (renderRow d r ++ ['\n']) := by simp [renderLines, hr]
  rw [← List.getElem?_append_left (l₂ := ['\n']) (by rwa [length_render]), render_append_newline]
  exact getElem?_flatten_of_length (length_of_mem_renderLines d) hline hc

/-- Settles O43: character `c` of line `r` is a cell's for `c` below 40 and the LF at 40. -/
theorem renderedGrid : Obligations.RenderedGrid := by
  refine fun d => ⟨length_render d, fun r c hr hc h => ?_, fun r hr => ?_⟩
  · rw [getElem?_render d hr (by omega) (by omega), List.getElem?_append_left (by rwa [length_renderRow d hr]),
      getElem?_renderRow d hc h]
    rfl
  · have hr' : r < 6 := by omega
    rw [getElem?_render d hr' (by omega) (by omega),
      List.getElem?_append_right (length_renderRow d hr').le, length_renderRow d hr']
    rfl

end Sys2Proof.Machine
end

section
/-! PROOFS. The driver's loop (46_host_driver.md R152-R154, R159): it makes no contract violation, a run from reset has
a length, and where `RunToHalt` and the raster run end. -/

namespace Sys2Proof.Machine

variable {s t : State} {n : Nat}

/-! ### The contract check (R152) -/

/-- A step made while runnable records no contract violation. -/
theorem State.StepsTo.no_contractViolation (h : s.StepsTo t) (hr : s.runnable = true) :
    t.hasFault .contractViolation = false := by
  have h0 := hasFault_of_fault_eq_zero (fault_of_runnable hr)
  cases h with
  | raise hf =>
    rw [hasFault_raise, h0]
    cases hf with
    | contractViolation hnr => exact absurd hr (by simp [hnr])
    | illegalInstruction _ _ _ => rfl
    | accOverflow _ _ _ _ => rfl
  | countDown _ _ _ => simpa [State.hasFault] using h0 .contractViolation
  | commit _ _ _ _ => simpa [State.hasFault] using h0 .contractViolation

/-- Steps made while runnable record no contract violation. -/
theorem afterN_no_contractViolation (hs : s.hasFault .contractViolation = false) {k : Nat}
    (hrun : ∀ j, j < k → (s.afterN j).runnable = true) :
    (s.afterN k).hasFault .contractViolation = false := by
  cases k with
  | zero => exact hs
  | succ k => exact afterN_succ s k ▸ (stepsTo_after _).no_contractViolation (hrun k k.lt_succ_self)

/-- Settles O44: what the driver's loop can do (`drive_ends`) is steps made while runnable. -/
theorem driverNeverViolatesTheContract : Obligations.DriverNeverViolatesTheContract := by
  intro go n s hs
  obtain ⟨k, hk, hend, hrun, -⟩ := drive_ends s go n
  exact ⟨hend ▸ afterN_no_contractViolation hs fun j hj => (hrun j hj).1, k, hk, hend, fun j hj => (hrun j hj).1⟩

/-! ### The length of a run -/

/-- From `s` exactly the first `n` steps are made while runnable, and during them `cycle` counts the steps. -/
structure State.RunsFor (s : State) (n : Nat) : Prop where
  runnable_iff : ∀ k, (s.afterN k).runnable = true ↔ k < n
  cycle : ∀ k, k < n → (s.afterN k).cycle = k

theorem State.RunsFor.not_runnable (hn : s.RunsFor n) : (s.afterN n).runnable = false :=
  Bool.eq_false_iff.mpr fun h => (hn.runnable_iff n).mp h |>.false

/-- A first state that is not runnable ends the run for good. -/
theorem runnable_afterN_iff (hrun : ∀ j, j < n → (s.afterN j).runnable = true)
    (hend : (s.afterN n).runnable = false) (k : Nat) : (s.afterN k).runnable = true ↔ k < n := by
  refine ⟨fun hk => ?_, hrun k⟩
  by_contra hge
  obtain rfl | hlt : n = k ∨ n < k := by omega
  · simp [hk] at hend
  · simp [runnable_of_afterN_fault s (fault_of_runnable hk) hlt] at hend

/-- Every run from reset has a length within the bound of R153, and `RunToHalt` with no budget goes to its end. -/
theorem exists_runsFor (hs : s.InRange) :
    ∃ n, n ≤ s.stepBound ∧ s.applyReset.RunsFor n ∧ s.runToHaltState none = s.applyReset.afterN n := by
  obtain ⟨n, hle, hstate, hrun, hend⟩ := drive_ends s.applyReset (withinBudget none) s.stepBound
  have hstop : (s.applyReset.afterN n).runnable = false := by
    rcases hend with rfl | hr | hbudget
    · exact not_runnable_at_stepBound hs
    · exact hr
    · cases hbudget
  have hiff := runnable_afterN_iff (fun j hj => (hrun j hj).1) hstop
  refine ⟨n, hle, ⟨hiff, fun k hk => ?_⟩, hstate⟩
  rw [hs.applyReset_inv.afterN_cycle (fault_of_runnable ((hiff k).mpr hk)), applyReset_cycle, Nat.zero_add]

/-- The empty program is Halted at reset (R113). -/
theorem runsFor_zero (h : s.progLen = 0) : s.applyReset.RunsFor 0 where
  runnable_iff := runnable_afterN_iff nofun (by simp [State.runnable, State.halted, h])
  cycle := nofun

/-- A program that does not fault runs for its cycle count (R107). -/
theorem State.faultFree.runsFor (hf : s.faultFree) (hs : s.InRange) :
    s.applyReset.RunsFor s.cycleCount ∧ s.runToHaltState none = s.applyReset.afterN s.cycleCount := by
  obtain ⟨n, -, hn, hstate⟩ := exists_runsFor hs
  obtain ⟨hrun, hhalted, -⟩ := cycleCountOfAProgram s hs hf
  have hiff := runnable_afterN_iff hrun (not_runnable_of_halted hhalted)
  have hlt (k : Nat) : k < n ↔ k < s.cycleCount := (hn.runnable_iff k).symm.trans (hiff k)
  obtain rfl : n = s.cycleCount := eq_of_forall_lt_iff hlt
  exact ⟨hn, hstate⟩

/-- Settles O45: within the length of the run, `cycle` counts the steps, so the budget bounds them. -/
theorem runToHaltEnds : Obligations.RunToHaltEnds := by
  intro s budget hs
  obtain ⟨n, hn, hruns, -⟩ := exists_runsFor hs
  obtain ⟨k, hk, hstate, hrun, hend⟩ := drive_ends s.applyReset (withinBudget budget) s.stepBound
  rw [State.runToHaltState, hstate]
  refine ⟨?_, k, hk, rfl, fun j hj => ?_⟩
  · rcases hend with rfl | hr | hbudget
    · exact .inl (not_runnable_at_stepBound hs)
    · exact .inl hr
    · cases budget with
      | none => cases hbudget
      | some b => exact .inr ⟨b, rfl, by simpa [withinBudget] using hbudget⟩
  · obtain ⟨hr, hbudget⟩ := hrun j hj
    refine ⟨hr, fun b hb => ?_⟩
    have hcycle := hruns.cycle j ((hruns.runnable_iff j).mp hr)
    simpa [hb, withinBudget, hcycle] using hbudget

/-! ### The raster run (R159) -/

/-- After NCELL steps from reset the raster is full, unless the run faulted (R134). -/
theorem rasterFull_afterN_NCELL (h0 : (s.applyReset.afterN Config.NCELL).fault = 0) :
    (s.applyReset.afterN Config.NCELL).rasterFull = true :=
  rasterFull_iff.mpr ((afterN_drawn s h0).wrIdx.trans (min_self _))

/-- Settles O50: what the driver's loop can do (`drive_ends`), with NCELL steps enough to fill the raster. -/
theorem rasterRun : Obligations.RasterRun := by
  intro s
  obtain ⟨k, hk, hstate, hrun, hend⟩ := drive_ends s.applyReset (fun t => !t.rasterFull) Config.NCELL
  refine ⟨k, hk, congrArg State.disp hstate, fun j hj => by simpa using hrun j hj, ?_⟩
  rcases hend with rfl | hr | hfull
  · cases hr : (s.applyReset.afterN Config.NCELL).runnable with
    | false => exact .inl rfl
    | true => exact .inr (rasterFull_afterN_NCELL (fault_of_runnable hr))
  · exact .inl hr
  · exact .inr (by simpa using hfull)

end Sys2Proof.Machine
end

section
/-! PROOFS. The checkpoint sampler (46_host_driver.md R155-R158): its two loops in a run of known length, then the
value and the end state of a checkpoint run. -/

namespace Sys2Proof.Machine

variable {s : State} {n m : Nat} {targets : List Int}

/-! ### The inner loop (R155) -/

/-- From the `m`-th state of a run, advancing to cycle `t` makes step `t - 1` the last, unless the run ends first. -/
theorem State.RunsFor.toCycle_afterN (hn : s.RunsFor n) (hm : m ≤ n) {t : Nat} (ht : m < t) :
    (s.afterN m).toCycle t = s.afterN (min (t - 1) n) := by
  obtain ⟨k, -, hstate, hrun, hend⟩ := drive_ends (s.afterN m) (fun u => decide (u.cycle + 1 < t)) t
  simp only [← afterN_add, hn.runnable_iff, decide_eq_true_eq, decide_eq_false_iff_not] at hstate hrun hend
  have hmade : ∀ j, j < k → m + j < n ∧ m + j + 1 < t := fun j hj => by
    obtain ⟨hlt, hcycle⟩ := hrun j hj
    exact ⟨hlt, hn.cycle _ hlt ▸ hcycle⟩
  have hle : m + k ≤ min (t - 1) n := by
    cases k with
    | zero => omega
    | succ k => have := hmade k k.lt_succ_self; omega
  have hge : min (t - 1) n ≤ m + k := by
    by_contra hlt
    rcases hend with rfl | hr | hcycle
    · omega
    · exact absurd ((hn.runnable_iff (m + k)).mpr (by omega)) (by simp [hr])
    · rw [hn.cycle _ (by omega)] at hcycle; omega
  rw [State.toCycle, hstate, le_antisymm hle hge]

/-! ### The outer loop (R155) -/

/-- A target whose cycle runs is sampled there. -/
theorem State.RunsFor.sampleAll_cons_of_le (hn : s.RunsFor n) (hm : m ≤ n) {t : Nat} (ht : m < t) (hle : t ≤ n)
    (ts : List Nat) (sum : Int) :
    State.sampleAll (t :: ts) sum (s.afterN m) =
      State.sampleAll ts (sum + t * (s.afterN (t - 1)).acc) (s.afterN (t - 1)) := by
  have hmin : min (t - 1) n = t - 1 := by omega
  have hr : (s.afterN (t - 1)).runnable = true := (hn.runnable_iff _).mpr (by omega)
  rw [State.sampleAll, hn.toCycle_afterN hm ht, hmin, if_pos hr]

/-- A target whose cycle never runs stops the sampler at the run's end. -/
theorem State.RunsFor.sampleAll_cons_of_lt (hn : s.RunsFor n) (hm : m ≤ n) {t : Nat} (hlt : n < t)
    (ts : List Nat) (sum : Int) :
    State.sampleAll (t :: ts) sum (s.afterN m) =
      { endState := s.afterN n, value := .error (s.afterN n).stopError } := by
  have hmin : min (t - 1) n = n := by omega
  rw [State.sampleAll, hn.toCycle_afterN hm (by omega), hmin, if_neg (by simp [hn.not_runnable])]

/-- After a target's sample, the rest of a strictly ascending list lies ahead of the state it was made in. -/
theorem pairwise_pred_cons {t : Nat} {ts : List Nat} (h : (t :: ts).Pairwise (· < ·)) :
    ((t - 1) :: ts).Pairwise (· < ·) := by
  obtain ⟨ht, hts⟩ := List.pairwise_cons.mp h
  exact List.pairwise_cons.mpr ⟨fun u hu => lt_of_le_of_lt (Nat.sub_le t 1) (ht u hu), hts⟩

/-- With every target's cycle run, the sampler adds up the samples and ends where the last was made. -/
theorem State.RunsFor.sampleAll_of_le (hn : s.RunsFor n) (hm : m ≤ n) {ts : List Nat}
    (hts : (m :: ts).Pairwise (· < ·)) (hle : ∀ t ∈ ts, t ≤ n) (sum : Int) :
    State.sampleAll ts sum (s.afterN m) =
      { endState := s.afterN ((ts.map (· - 1)).getLastD m)
        value := .ok (sum + (ts.map fun t : Nat => t * (s.afterN (t - 1)).acc).sum) } := by
  induction ts generalizing m sum with
  | nil => simp [State.sampleAll]
  | cons t ts ih =>
    obtain ⟨hahead, hts'⟩ := List.pairwise_cons.mp hts
    obtain ⟨ht, hle'⟩ := List.forall_mem_cons.mp hle
    rw [hn.sampleAll_cons_of_le hm (hahead t List.mem_cons_self) ht,
      ih (by omega) (pairwise_pred_cons hts') hle', List.map_cons, List.map_cons, List.getLastD_cons,
      List.sum_cons, Int.add_assoc]

/-- With some target's cycle never run, the sampler stops at the run's end. -/
theorem State.RunsFor.sampleAll_of_lt (hn : s.RunsFor n) (hm : m ≤ n) {ts : List Nat}
    (hts : (m :: ts).Pairwise (· < ·)) (hlt : ∃ t ∈ ts, n < t) (sum : Int) :
    State.sampleAll ts sum (s.afterN m) =
      { endState := s.afterN n, value := .error (s.afterN n).stopError } := by
  induction ts generalizing m sum with
  | nil => simp at hlt
  | cons t ts ih =>
    obtain ⟨hahead, hts'⟩ := List.pairwise_cons.mp hts
    by_cases ht : n < t
    · exact hn.sampleAll_cons_of_lt hm ht ts sum
    · rw [hn.sampleAll_cons_of_le hm (hahead t List.mem_cons_self) (by omega)]
      have hrest : ∃ u ∈ ts, n < u := by simpa [ht] using hlt
      exact ih (by omega) (pairwise_pred_cons hts') hrest _

/-! ### A checkpoint run -/

theorem checkpointRun_of_not_targetsOk (h : ¬targetsOk targets) :
    s.checkpointRun targets = { endState := s, value := .error .badTargets } := if_neg h

theorem checkpointRun_of_targetsOk (h : targetsOk targets) :
    s.checkpointRun targets = State.sampleAll (targets.map Int.toNat) 0 (s.applyReset.afterN 0) := if_pos h

/-- A good list, read as cycle numbers, ascends strictly from 0. -/
theorem pairwise_zero_cons_toNat (h : targetsOk targets) : (0 :: targets.map Int.toNat).Pairwise (· < ·) := by
  obtain ⟨hasc, hpos⟩ := h
  refine List.pairwise_cons.mpr ⟨fun u hu => ?_, List.pairwise_map.mpr (hasc.imp_of_mem fun ht _ htu => ?_)⟩
  · obtain ⟨t, ht, rfl⟩ := List.mem_map.mp hu
    have := hpos t ht
    omega
  · have := hpos _ ht
    omega

/-- With every target's cycle run, the value is the checkpoint sum (R158) and no step follows the last target. -/
theorem State.RunsFor.checkpointRun_of_le (hn : s.applyReset.RunsFor n) (hok : targetsOk targets)
    (hle : ∀ t ∈ targets, t ≤ n) :
    s.checkpointRun targets =
      { endState := s.applyReset.afterN ((targets.map fun t => t.toNat - 1).getLastD 0)
        value := .ok (targets.map fun t => t * (s.applyReset.afterN (t.toNat - 1)).acc).sum } := by
  have hle' : ∀ t ∈ targets.map Int.toNat, t ≤ n := by simpa using hle
  have hterm : ∀ t ∈ targets, (t.toNat : Int) * (s.applyReset.afterN (t.toNat - 1)).acc =
      t * (s.applyReset.afterN (t.toNat - 1)).acc := fun t ht => by
    rw [Int.toNat_of_nonneg (Int.le_trans Int.one_nonneg (hok.2 t ht))]
  rw [checkpointRun_of_targetsOk hok, hn.sampleAll_of_le (Nat.zero_le n) (pairwise_zero_cons_toNat hok) hle',
    List.map_map, List.map_map, Int.zero_add]
  simp only [Function.comp_def, List.map_congr_left hterm]

/-- With some target's cycle never run, the run ends not runnable, and the value is the error of `Stop()` there. -/
theorem State.RunsFor.checkpointRun_of_lt (hn : s.applyReset.RunsFor n) (hok : targetsOk targets)
    (hlt : ∃ t ∈ targets, (n : Int) < t) :
    s.checkpointRun targets =
      { endState := s.applyReset.afterN n, value := .error (s.applyReset.afterN n).stopError } := by
  have hlt' : ∃ t ∈ targets.map Int.toNat, n < t := by simpa using hlt
  rw [checkpointRun_of_targetsOk hok,
    hn.sampleAll_of_lt (Nat.zero_le n) (pairwise_zero_cons_toNat hok) hlt']

theorem stopError_of_clean (h : s.clean) : s.stopError = .insufficientCycles := by
  have hf : s.faulted = false := decide_eq_false (not_not_intro h)
  rw [State.stopError, hf]
  rfl

theorem stopError_of_not_clean (h : ¬s.clean) : s.stopError = .engineFault s.fault := by
  have hf : s.faulted = true := decide_eq_true h
  rw [State.stopError, if_pos hf]

/-- Cycle `t` of a run is one that runs if step `t - 1` is one that is made. -/
theorem State.RunsFor.runnable_pred_iff (hn : s.RunsFor n) {t : Int} (ht : 1 ≤ t) :
    (s.afterN (t.toNat - 1)).runnable = true ↔ t ≤ n := by
  rw [hn.runnable_iff]
  omega

/-! ### The obligations -/

/-- Settles O47: every target is within the length of the run, so it is sampled. -/
theorem checkpointSum : Obligations.CheckpointSum := by
  intro s targets hs hok hrun
  obtain ⟨n, -, hn, -⟩ := exists_runsFor hs
  have hle : ∀ t ∈ targets, t ≤ n := fun t ht => (hn.runnable_pred_iff (hok.2 t ht)).mp (hrun t ht)
  rw [State.checkpoint, hn.checkpointRun_of_le hok hle]

/-- On a program that does not fault a target beyond the cycle count gives InsufficientCycles, and nothing else does. -/
theorem State.faultFree.checkpoint_eq_insufficientCycles_iff (hf : s.faultFree) (hs : s.InRange)
    (hok : targetsOk targets) :
    s.checkpoint targets = .error .insufficientCycles ↔ ∃ t ∈ targets, (s.cycleCount : Int) < t := by
  obtain ⟨hn, hstate⟩ := hf.runsFor hs
  have hclean : (s.applyReset.afterN s.cycleCount).clean := hstate ▸ hf
  by_cases hlt : ∃ t ∈ targets, (s.cycleCount : Int) < t
  · rw [State.checkpoint, hn.checkpointRun_of_lt hok hlt, stopError_of_clean hclean]
    exact iff_of_true rfl hlt
  · have hle : ∀ t ∈ targets, t ≤ s.cycleCount := by simpa using hlt
    rw [State.checkpoint, hn.checkpointRun_of_le hok hle]
    exact iff_of_false nofun hlt

/-- A run that faults before a target's cycle gives EngineFault with the fault bits of its end. -/
theorem checkpoint_of_not_faultFree (hs : s.InRange) (hok : targetsOk targets) (hf : ¬s.faultFree)
    (hex : ∃ t ∈ targets, (s.applyReset.afterN (t.toNat - 1)).runnable = false) :
    s.checkpoint targets = .error (.engineFault (s.runToHaltState none).fault) := by
  obtain ⟨n, -, hn, hstate⟩ := exists_runsFor hs
  have hfaulted : ¬(s.applyReset.afterN n).clean := hstate ▸ hf
  obtain ⟨t, ht, hr⟩ := hex
  have hlt : (n : Int) < t := not_le.mp fun hle => by
    simp [(hn.runnable_pred_iff (hok.2 t ht)).mpr hle] at hr
  rw [State.checkpoint, hn.checkpointRun_of_lt hok ⟨t, ht, hlt⟩, stopError_of_not_clean hfaulted, hstate]

/-- On the empty program no target's cycle runs. -/
theorem checkpoint_cons_of_progLen_eq_zero {t : Int} (hlen : s.progLen = 0) (hok : targetsOk (t :: targets)) :
    s.checkpoint (t :: targets) = .error .insufficientCycles := by
  have hlt : ∃ u ∈ t :: targets, ((0 : Nat) : Int) < u := ⟨t, List.mem_cons_self, hok.2 t List.mem_cons_self⟩
  rw [State.checkpoint, (runsFor_zero hlen).checkpointRun_of_lt hok hlt, afterN_zero,
    stopError_of_clean (applyReset_fault s)]

/-- Settles O48: a list is sampled whole or stops at the run's end with its error; the length of a run without a fault
is the cycle count, that of the empty program's run is 0. -/
theorem checkpointErrors : Obligations.CheckpointErrors :=
  ⟨fun _ _ hs hok hf => hf.checkpoint_eq_insufficientCycles_iff hs hok,
    fun _ _ => checkpoint_of_not_faultFree, fun _ => rfl, fun _ _ _ => checkpoint_cons_of_progLen_eq_zero⟩

/-- Settles O49: two entries in the wrong order break the ascent, an entry below 1 the lower bound. -/
theorem badTargetsAreRefused : Obligations.BadTargetsAreRefused := by
  refine ⟨fun s pre mid post t u hut => ?_, fun s pre post t ht => ?_⟩
  · have hbad : ¬targetsOk (pre ++ t :: (mid ++ u :: post)) := fun ⟨hasc, _⟩ => by
      obtain ⟨-, hfrom, -⟩ := List.pairwise_append.mp hasc
      obtain ⟨hlater, -⟩ := List.pairwise_cons.mp hfrom
      exact absurd (hlater u (by simp)) (not_lt.mpr hut)
    rw [State.checkpoint, checkpointRun_of_not_targetsOk hbad]
  · have hbad : ¬targetsOk (pre ++ t :: post) := fun ⟨_, hpos⟩ => absurd (hpos t (by simp)) (not_le.mpr ht)
    rw [State.checkpoint, checkpointRun_of_not_targetsOk hbad]

/-- Settles O55: a list sampled whole ends runnable at its last target; any other good list ends with the run. -/
theorem checkpointRunEnds : Obligations.CheckpointRunEnds := by
  refine ⟨fun s targets hs hok => ?_, fun s targets hbad => congrArg _ (checkpointRun_of_not_targetsOk hbad)⟩
  obtain ⟨n, -, hn, -⟩ := exists_runsFor hs
  by_cases hlt : ∃ t ∈ targets, (n : Int) < t
  · rw [RunOutcome.clean, hn.checkpointRun_of_lt hok hlt]
    exact ⟨n, rfl, fun j => (hn.runnable_iff j).mpr, .inr ⟨hn.not_runnable,
      fun h => congrArg _ (stopError_of_clean h), fun h => congrArg _ (stopError_of_not_clean h)⟩⟩
  · have hle : ∀ t ∈ targets, t ≤ n := by simpa using hlt
    rw [RunOutcome.clean, hn.checkpointRun_of_le hok hle]
    rcases targets.eq_nil_or_concat' with rfl | ⟨ts, t, rfl⟩
    · exact ⟨0, rfl, nofun, .inl ⟨_, rfl, rfl, fun _ => rfl, nofun⟩⟩
    · have hmem : t ∈ ts ++ [t] := by simp
      have hr := (hn.runnable_pred_iff (hok.2 t hmem)).mpr (hle t hmem)
      have hlast : ((ts ++ [t]).map fun t => t.toNat - 1).getLastD 0 = t.toNat - 1 := by
        rw [List.map_append, List.map_singleton, List.getLastD_concat]
      rw [hlast]
      refine ⟨t.toNat - 1, rfl, fun j hj => ?_, .inl ⟨_, rfl, fault_of_runnable hr, by simp, by simpa using hr⟩⟩
      exact (hn.runnable_iff j).mpr (hj.trans ((hn.runnable_iff _).mp hr))

end Sys2Proof.Machine
end

section
/-! PROOFS. A run's result depends on the program and the parameters only (46_host_driver.md R161): two runs that start
with the same visible state, as they do after reset, keep it in common. -/

namespace Sys2Proof.Machine

variable {s u : State}

/-! ### What reads the visible state only -/

@[simp] theorem visible_disp (s : State) : s.visible.disp = s.disp := rfl
@[simp] theorem visible_runResult (s : State) : s.visible.runResult = s.runResult := rfl
@[simp] theorem visible_stopError (s : State) : s.visible.stopError = s.stopError := rfl

/-- What reads the visible state only is the same in two states with the same visible part. -/
theorem eq_of_visible_eq {α : Type} {f : State → α} (hf : ∀ v, f v.visible = f v) (h : s.visible = u.visible) :
    f s = f u :=
  (hf s).symm.trans ((congrArg f h).trans (hf u))

/-! ### Runs from states with the same visible part -/

theorem visible_after_visible (s : State) : s.visible.after.visible = s.after.visible := by
  obtain ⟨-, -, hafter⟩ := emptyLatchContentsNeverShow s
  exact hafter

theorem after_visible_congr (h : s.visible = u.visible) : s.after.visible = u.after.visible :=
  eq_of_visible_eq (f := fun v => v.after.visible) visible_after_visible h

theorem drive_visible_congr {go : State → Bool} (hgo : ∀ v, go v.visible = go v) (n : Nat)
    (h : s.visible = u.visible) : (s.drive go n).visible = (u.drive go n).visible := by
  induction n generalizing s u with
  | zero => exact h
  | succ n ih =>
    rw [State.drive, State.drive, eq_of_visible_eq visible_runnable h, eq_of_visible_eq hgo h]
    split
    · exact ih (after_visible_congr h)
    · exact h

theorem toCycle_visible_congr (t : Nat) (h : s.visible = u.visible) :
    (s.toCycle t).visible = (u.toCycle t).visible :=
  drive_visible_congr (fun _ => rfl) t h

theorem sampleAll_value_congr (ts : List Nat) (sum : Int) (h : s.visible = u.visible) :
    (State.sampleAll ts sum s).value = (State.sampleAll ts sum u).value := by
  induction ts generalizing sum s u with
  | nil => rfl
  | cons t ts ih =>
    have ht := toCycle_visible_congr t h
    rw [State.sampleAll, State.sampleAll, eq_of_visible_eq visible_runnable ht,
      eq_of_visible_eq visible_acc ht, eq_of_visible_eq visible_stopError ht]
    split
    · exact ih _ ht
    · rfl

/-- Reset leaves nothing of the registers but what an empty latch holds and the count of free values (R191). -/
theorem applyReset_visible_congr (hp : u.params = s.params) (hm : u.imem = s.imem) (hl : u.progLen = s.progLen) :
    u.applyReset.visible = s.applyReset.visible := by
  simp [State.visible, State.applyReset, State.resetFor, hp, hm, hl]

/-- Settles O51: each procedure's loop keeps the visible state the two runs have in common after reset. -/
theorem runsDependOnlyOnTheProgram : Obligations.RunsDependOnlyOnTheProgram := by
  intro s u hp hm hl
  have hreset := applyReset_visible_congr hp hm hl
  refine ⟨fun budget => ?_, fun targets => ?_, ?_⟩
  · have hbound : u.stepBound = s.stepBound := congrArg (2 * ·) hl
    have hgo : ∀ v : State, withinBudget budget v.visible = withinBudget budget v := fun _ => rfl
    have hend : (u.runToHaltState budget).visible = (s.runToHaltState budget).visible := by
      rw [State.runToHaltState, State.runToHaltState, hbound]
      exact drive_visible_congr hgo _ hreset
    exact eq_of_visible_eq (f := State.runResult) visible_runResult hend
  · by_cases hok : targetsOk targets
    · rw [State.checkpoint, State.checkpoint, State.checkpointRun, State.checkpointRun, if_pos hok, if_pos hok]
      exact sampleAll_value_congr _ 0 hreset
    · rw [State.checkpoint, State.checkpoint, checkpointRun_of_not_targetsOk hok,
        checkpointRun_of_not_targetsOk hok]
  · have hend : u.rasterState.visible = s.rasterState.visible :=
      drive_visible_congr (fun _ => rfl) Config.NCELL hreset
    exact eq_of_visible_eq (f := State.disp) visible_disp hend

end Sys2Proof.Machine
end

section
/-! PROOFS. The three faults (60_exceptions.md R171-R179): the condition under which each is raised, what a step that
raises one leaves, and a Faulted engine until reset. -/

namespace Sys2Proof.Machine

variable {s t : State} {f : FaultCause}

/-! ### The condition of each cause (R172-R174) -/

theorem raises_contractViolation_iff : s.Raises .contractViolation ↔ s.runnable = false := by
  constructor
  · intro h
    cases h with
    | contractViolation hr => exact hr
  · exact .contractViolation

theorem raises_illegalInstruction_iff :
    s.Raises .illegalInstruction ↔
      s.runnable = true ∧ s.latch.valid = false ∧ ∃ why, s.fetch = .illegal why := by
  constructor
  · intro h
    cases h with
    | illegalInstruction hr hv hw => exact ⟨hr, hv, _, hw⟩
  · rintro ⟨hr, hv, why, hw⟩
    exact .illegalInstruction hr hv hw

/-- ACC_OVERFLOW by the registers: the ADDX that overflows is the one held, in its second step. -/
theorem raises_accOverflow_iff :
    s.Raises .accOverflow ↔
      s.runnable = true ∧ s.latch.valid = true ∧ s.latch.op = .addx ∧ s.latch.cnt = 0 ∧
        ¬IntFits s.params.accW (s.acc + s.latch.delta) := by
  constructor
  · intro h
    cases h with
    | accOverflow hr hi hc hf =>
      obtain ⟨hv, hop, hd, hcnt⟩ := held_of_addx_commit hi hc
      exact ⟨hr, hv, hop, hcnt, hd ▸ hf⟩
  · rintro ⟨hr, hv, hop, hcnt, hf⟩
    have hi : s.inHand = .instr (.addx s.latch.delta) := by rw [inHand_of_valid s hv, Latch.instr, hop]
    exact .accOverflow hr hi (counter_addx_eq_zero_iff.mpr ⟨hv, hcnt⟩) hf

/-- R74: a word with an unknown opcode, or with NOOP's and an immediate, is no instruction. -/
theorem exists_illegal_of_fields {w : Word}
    (h : (opcOf w ≠ 0x00 ∧ opcOf w ≠ 0x01) ∨ (opcOf w = 0x00 ∧ imm24Of w ≠ 0)) :
    ∃ why, decode w = .illegal why := by
  rcases h with ⟨h0, h1⟩ | ⟨h0, hi⟩
  · exact ⟨_, decode_unknownOpcode h0 h1⟩
  · exact ⟨_, decode_noopImmediate h0 hi⟩

/-! ### A step and the fault register -/

theorem State.Raises.step_eq (h : s.Raises f) : step s = .next (s.raise f) :=
  step_iff_stepsTo.mpr (.raise h)

/-- A step raises one cause, under that cause's condition, or was allowed and ends with no fault. -/
theorem State.StepsTo.fault_cases (h : s.StepsTo t) :
    (∃ f, s.Raises f ∧ t = s.raise f) ∨ (s.runnable = true ∧ t.fault = 0) := by
  cases h with
  | raise hf => exact .inl ⟨_, hf, rfl⟩
  | countDown hr _ _ => exact .inr ⟨hr, by simpa using fault_of_runnable hr⟩
  | commit hr _ _ _ => exact .inr ⟨hr, by simpa using fault_of_runnable hr⟩

theorem State.StepsTo.raises_of_faulted (h : s.StepsTo t) (hne : t.fault ≠ 0) :
    ∃ f, s.Raises f ∧ t = s.raise f := by
  rcases h.fault_cases with hraise | ⟨-, h0⟩
  · exact hraise
  · exact absurd h0 hne

/-- A step that newly records a cause met that cause's condition. -/
theorem State.StepsTo.raises_of_hasFault (h : s.StepsTo t) (hs : s.hasFault f = false)
    (ht : t.hasFault f = true) : s.Raises f := by
  rcases h.fault_cases with ⟨g, hg, rfl⟩ | ⟨-, h0⟩
  · obtain rfl : g = f := by simpa [hasFault_raise, hs] using ht
    exact hg
  · exact absurd ht (by simp [hasFault_of_fault_eq_zero h0])

/-- The bit a cause sets is the one its code numbers (R175). -/
theorem mask_eq_twoPow (f : FaultCause) : f.mask = BitVec.twoPow 3 f.code := by
  cases f <;> rfl

/-- In a runnable state, where no fault is recorded, a raise records exactly its own bit. -/
theorem raise_fault_of_runnable (hr : s.runnable = true) (f : FaultCause) : (s.raise f).fault = f.mask := by
  simp [fault_of_runnable hr]

/-! ### Faulted (R179) -/

theorem not_runnable_of_faulted (h : s.faulted = true) : s.runnable = false := by
  simp [State.runnable, h]

theorem raise_faulted (s : State) (f : FaultCause) : (s.raise f).faulted = true :=
  decide_eq_true (raise_fault_ne_zero s f)

/-- A last edge acts on the state the edges before it leave. -/
theorem afterEdges_concat (s : State) (es : List (Bool × Bool)) (e : Bool × Bool) :
    s.afterEdges (es ++ [e]) = outcomeState (s.afterEdges es) (clockEdge e.1 e.2 (s.afterEdges es)) := by
  induction es generalizing s with
  | nil => rfl
  | cons d es ih => exact ih _

/-! ### The obligations -/

/-- Settles O34: the condition of CONTRACT_VIOLATION, both ways. -/
theorem contractViolationFault : Obligations.ContractViolationFault :=
  ⟨⟨rfl, fun _ => rfl⟩, fun _ hr => (raises_contractViolation_iff.mpr hr).step_eq, fun _ _ h hs ht =>
    raises_contractViolation_iff.mp ((step_iff_stepsTo.mp h).raises_of_hasFault hs ht)⟩

/-- Settles O33: the condition of ACC_OVERFLOW, both ways. -/
theorem accOverflowFault : Obligations.AccOverflowFault :=
  ⟨⟨rfl, fun _ => rfl⟩,
    fun _ hr hv hop hcnt hf => (raises_accOverflow_iff.mpr ⟨hr, hv, hop, hcnt, hf⟩).step_eq,
    fun _ _ h hs ht => raises_accOverflow_iff.mp ((step_iff_stepsTo.mp h).raises_of_hasFault hs ht)⟩

/-- Settles O32: the condition of ILLEGAL_INSTRUCTION, both ways; a runnable engine fetches program memory. -/
theorem illegalInstructionFault : Obligations.IllegalInstructionFault := by
  refine ⟨⟨rfl, fun _ => rfl⟩, fun s hr hv hw => ?_, fun s t h hs ht => ?_⟩
  · obtain ⟨why, hdec⟩ := exists_illegal_of_fields hw
    have hfetch := (fetch_of_runnable hr hv).trans hdec
    exact (raises_illegalInstruction_iff.mpr ⟨hr, hv, why, hfetch⟩).step_eq
  · have hraises := (step_iff_stepsTo.mp h).raises_of_hasFault hs ht
    obtain ⟨hr, hv, why, hfetch⟩ := raises_illegalInstruction_iff.mp hraises
    exact ⟨hr, hv, why, (fetch_of_runnable hr hv).symm.trans hfetch⟩

/-- Settles O36: by the cause raised, if any; an allowed step starts with fault 0. -/
theorem atMostOneFaultAStep : Obligations.AtMostOneFaultAStep := by
  intro s t h
  refine ⟨fun hr => ?_, fun hr => ⟨fault_of_runnable hr, ?_⟩⟩
  · rw [next_eq_after s h, after_of_not_runnable s hr]; rfl
  · rcases (step_iff_stepsTo.mp h).fault_cases with ⟨f, hf, rfl⟩ | ⟨-, h0⟩
    · rw [raise_fault_of_runnable hr]
      cases f with
      | contractViolation => simp [raises_contractViolation_iff.mp hf] at hr
      | illegalInstruction => exact .inl ⟨rfl, (raises_illegalInstruction_iff.mp hf).2⟩
      | accOverflow =>
        obtain ⟨-, hv, hop, hcnt, -⟩ := raises_accOverflow_iff.mp hf
        exact .inr (.inl ⟨rfl, hv, hop, hcnt⟩)
    · exact .inr (.inr h0)

/-- Settles O35: the step is a raise, which leaves the registers its cause's condition speaks of. -/
theorem faultsArePrecise : Obligations.FaultsArePrecise := by
  intro s t h hne
  have hst := step_iff_stepsTo.mp h
  obtain ⟨f, -, rfl⟩ := hst.raises_of_faulted hne
  refine ⟨⟨f, mask_eq_twoPow f, rfl⟩, fun h0 ht => ?_, fun h0 ht => ?_⟩
  · obtain ⟨hr, hv, why, hfetch⟩ :=
      raises_illegalInstruction_iff.mp (hst.raises_of_hasFault (hasFault_of_fault_eq_zero h0 _) ht)
    exact ⟨hv, why, (fetch_of_runnable hr hv).symm.trans hfetch⟩
  · obtain ⟨-, hv, hop, -, -⟩ :=
      raises_accOverflow_iff.mp (hst.raises_of_hasFault (hasFault_of_fault_eq_zero h0 _) ht)
    exact ⟨hv, hop, fun hs => (hs.latch_pc hv).2⟩

/-- Settles O37: a Faulted engine is not runnable, so without reset it can only record CONTRACT_VIOLATION. -/
theorem onlyResetLeavesFaulted : Obligations.OnlyResetLeavesFaulted := by
  refine fun s es hf => ⟨fun hes => ?_, fun stepIn => by rw [afterEdges_concat]; rfl⟩
  have hr := not_runnable_of_faulted hf
  rw [afterEdges_of_not_runnable hr es hes]
  split
  · exact ⟨raise_faulted s _, raise_runnable s _, rfl⟩
  · exact ⟨hf, hr, rfl⟩

end Sys2Proof.Machine
end

section
/-! PROOFS. What the host's load leaves (46_host_driver.md R150, 70_reset_and_hazards.md R193), and the registers after
an edge with `rst = 1` (R190). -/

namespace Sys2Proof.Machine

/-! ### Loading a program -/

/-- A program whose length PC_W bits can hold is loaded from index 0, with the registers reset. -/
theorem load_of_lt {s : State} {ws : List Word} (h : ws.length < 2 ^ s.params.pcW) :
    s.load ws = .ok (State.resetFor s.params (Memory.ofWords [] 0 ws) ws.length s.freeDraws) := if_pos h

theorem load_of_ge {s : State} {ws : List Word} (h : 2 ^ s.params.pcW ≤ ws.length) :
    s.load ws = .error .programTooLong := if_neg (Nat.not_lt.mpr h)

/-- The words below PROG_LEN are the loaded ones, in their order. -/
theorem program_resetFor_ofWords (p : Params) (ws : List Word) (free : Nat) :
    (State.resetFor p (Memory.ofWords [] 0 ws) ws.length free).program = ws := by
  refine List.ext_getElem (by simp [State.program, State.resetFor]) fun k _ hk => ?_
  simp only [State.program, List.getElem_map, List.getElem_range]
  exact programWord_resetFor_ofWords p free (List.getElem?_eq_getElem hk)

/-! ### The obligations -/

/-- Settles O7: the loaded image reads back as the program (`program_resetFor_ofWords`) and is canonical. -/
theorem loadPlacesTheProgram : Obligations.LoadPlacesTheProgram := fun s ws =>
  ⟨fun h => ⟨_, load_of_lt h, rfl, program_resetFor_ofWords s.params ws s.freeDraws, rfl, wf_ofWords ws wf_nil 0⟩,
    load_of_ge⟩

/-- Settles O11: the edge answers `State.applyReset`, whose registers are the reset values. -/
theorem resetEdgeLeavesResetValues : Obligations.ResetEdgeLeavesResetValues := fun s stepIn =>
  ⟨s.applyReset, clockEdge_reset s stepIn, applyReset_acc s, applyReset_pc s,
    congrArg Latch.valid (applyReset_latch s), congrArg Latch.cnt (applyReset_latch s),
    applyReset_cycle s, applyReset_fault s, applyReset_cell s, applyReset_wrIdx s,
    applyReset_imem s, applyReset_progLen s, applyReset_params s⟩

end Sys2Proof.Machine
end

section
/-! PROOFS. The two starts of a run that the model itself gives: a block right after reset (70_reset_and_hazards.md
R190), and a state with one word placed where its next step fetches (log 6). -/

namespace Sys2Proof.Machine

variable (s : State)

/-! ### A placed word -/

/-- A word has 32 bits, so its number is cut to itself. -/
theorem withFetchWord_32 (w : Nat) : s.withFetchWord 32 w = s.placeInstr (BitVec.ofNat 32 w) :=
  congrArg s.placeInstr (BitVec.eq_of_toNat_eq (by simp))

/-- PROG_LEN is raised above the place where it is not. -/
theorem placeIndex_lt_placeInstr_progLen (w : Word) : s.placeIndex < (s.placeInstr w).progLen := by
  rw [placeInstr_progLen]
  split
  next h => exact h
  next => exact Nat.lt_succ_self _

/-- The next step is allowed (R31): no fault is recorded, and `pc` is below PROG_LEN. -/
theorem placeInstr_runnable (w : Word) : (s.placeInstr w).runnable = true := by
  have hpc : ¬(s.placeInstr w).progLen ≤ (s.placeInstr w).pc :=
    Nat.not_le.mpr (placeIndex_lt_placeInstr_progLen s w)
  exact runnable_iff.mpr ⟨by simp only [State.halted, decide_eq_false hpc, Bool.and_false], placeInstr_fault s w⟩

/-- The next step fetches, and what it fetches is the placed word (R103). -/
theorem placeInstr_inHand (hm : Memory.wf s.imem) (w : Word) : (s.placeInstr w).inHand = decode w := by
  have hempty : (s.placeInstr w).latch.valid = false := rfl
  have hread : Memory.readWord (s.placeInstr w).imem (s.placeInstr w).pc = w :=
    (readWord_writeWord hm s.placeIndex w s.placeIndex).trans (if_pos rfl)
  rw [inHand_of_empty _ hempty, fetch_of_runnable (placeInstr_runnable s w) hempty, hread]

/-! ### The obligations -/

/-- Settles O12: `State.reset` is the reset state of the block with the default parameters, no program and PROG_LEN 0,
and every reset state meets the invariant (`resetFor_inv`). -/
theorem resetMeetsTheInvariant : Obligations.ResetMeetsTheInvariant :=
  ⟨resetFor_inv { } 0 wf_nil (Nat.two_pow_pos _), fun p _ _ free hm hn => resetFor_inv p free hm hn⟩

/-- Settles O14: the state with the word placed is runnable, and the instruction in hand is the one the word decodes
to. -/
theorem placedWordRunsNext : Obligations.PlacedWordRunsNext := fun s w _ hm hdec => by
  rw [withFetchWord_32]
  exact step_of_instr _ (placeInstr_runnable s _) ((placeInstr_inHand s hm _).trans hdec)

end Sys2Proof.Machine
end
